-- ==== Sys2Proof/Word.lean ====
section
/-! DEFINITION. The value types of the JCB: every value is an unsigned integer of a stated width
(00_scope.md R8), and a register is a cell that holds a value or none (10_state.md R13). -/

namespace Sys2Proof

/-- One data byte. -/
abbrev Byte := BitVec 8

/-- A register cell of width `w` (10_state.md R13: "In a model, a cell is `Option (BitVec w)`"):
`none` is the spec's `⊥`, "no value" (00_scope.md R10). -/
abbrev RegCell (w : Nat) := Option (BitVec w)

/-- A lane register: eight byte cells, each independently `⊥` or a byte (10_state.md R13). -/
abbrev Lanes := Vector (RegCell 8) 8

end Sys2Proof
end

