-- ==== Sys2Proof/Syntax.lean ====
section
/-! DEFINITION. The command set `JCB-1` (00_scope.md R2, 30_encoding.md R50): one constructor per
row of spec/opcode_table.json. A command word carries no operand (30_encoding.md R46, R47), so no
constructor has an argument. -/

namespace Sys2Proof

inductive Instr where
  /-- `FRAME_DECODE`, 40_frame_codec.md R65. -/
  | frameDecode
  /-- `FRAME_ENCODE`, 40_frame_codec.md R66. -/
  | frameEncode
  /-- `PGN_PACK`, 40_frame_codec.md R67. -/
  | pgnPack
  /-- `NAME_DECODE`, 41_name_codec.md R74. -/
  | nameDecode
  /-- `NAME_ENCODE`, 41_name_codec.md R75. -/
  | nameEncode
  /-- `NAME_COMPARE`, 41_name_codec.md R76. -/
  | nameCompare
  /-- `NAME_TO_BYTES`, 41_name_codec.md R77. -/
  | nameToBytes
  /-- `NAME_FROM_BYTES`, 41_name_codec.md R78. -/
  | nameFromBytes
deriving DecidableEq, Repr

end Sys2Proof
end

