-- ==== Sys2Proof/Decode.lean ====
section
/-! DEFINITION. Decoding and encoding of the 8-bit command word (30_encoding.md R46 to R51). -/

namespace Sys2Proof

/-- Why a command word selects no command (30_encoding.md R51). Both kinds behave identically: the
step raises the architected error `IllegalCommand` (60_exceptions.md R86), a next state. -/
inductive IllegalWord where
  /-- `Z`, bits [7:4], is not 0000. -/
  | reservedBits
  /-- `Z` is 0000 and `OP` is 0x0 or 0x9 to 0xF. -/
  | unassignedOp
deriving DecidableEq, Repr

/-- The field `OP` of the format `CMD8` (R46). -/
def wordOp (w : BitVec 8) : BitVec 4 := w.extractLsb' 0 4

/-- The field `Z` of the format `CMD8` (R46). -/
def wordZ (w : BitVec 8) : BitVec 4 := w.extractLsb' 4 4

/-- The command that `OP` selects when `Z` is zero (R48). -/
def decodeOp (op : BitVec 4) : Except IllegalWord Instr :=
  if op = 0x1 then .ok .frameDecode
  else if op = 0x2 then .ok .frameEncode
  else if op = 0x3 then .ok .pgnPack
  else if op = 0x4 then .ok .nameDecode
  else if op = 0x5 then .ok .nameEncode
  else if op = 0x6 then .ok .nameCompare
  else if op = 0x7 then .ok .nameToBytes
  else if op = 0x8 then .ok .nameFromBytes
  else .error .unassignedOp

/-- Decoding a command word is total (R48): all 256 words select one command or are illegal. -/
def decode (w : BitVec 8) : Except IllegalWord Instr :=
  if wordZ w ≠ 0 then .error .reservedBits else decodeOp (wordOp w)

/-- `OP` of each command (the command map R50). -/
def opOf : Instr → BitVec 4
  | .frameDecode => 0x1
  | .frameEncode => 0x2
  | .pgnPack => 0x3
  | .nameDecode => 0x4
  | .nameEncode => 0x5
  | .nameCompare => 0x6
  | .nameToBytes => 0x7
  | .nameFromBytes => 0x8

/-- The command word of a command: `Z = 0000` above `OP` (R46, R50). -/
def encode (i : Instr) : BitVec 8 := (0#4 ++ opOf i : BitVec (4 + 4))

/-- The number that the low `nbits` bits of `w` hold, the bits above them being zero. -/
def tableWord (nbits w : Nat) : Nat := w % 2 ^ nbits

/-- The instruction the decoder reads from a table word. A command word is 8 bits (R49), so a number
that does not fit in 8 bits is no command word (log 11). -/
def decodeTableWord (nbits w : Nat) : Option Instr :=
  if tableWord nbits w < 256 then (decode (BitVec.ofNat 8 (tableWord nbits w))).toOption else none

end Sys2Proof
end

