-- ==== Sys2Proof/Machine/Register.lean ====
section
/-! DEFINITION. The names of the JCB's registers, their widths and the result groups
(10_state.md R14, R16, R17, R19, R20). The host names each register directly (20_memory.md R31). -/

namespace Sys2Proof.Machine

/-- The three lane registers that both IN and OUT have (10_state.md R13). -/
inductive LaneReg where
  | fdata | data | nbytes
deriving DecidableEq, Repr

/-- The IN operand registers and lanes (10_state.md R14). -/
inductive InReg where
  | fid | flen | prio | rbit | dp | pf | ps | sa | len | pgn | da
  | aac | ig | vsi | vs | nrsv | func | finst | ecui | mfg | idn
  | nameA | nameB
  | lane (l : LaneReg) (i : Fin 8)
deriving DecidableEq, Repr

/-- Widths of the IN registers (10_state.md R14). -/
@[reducible] def InReg.width : InReg → Nat
  | .fid => 29
  | .flen => 4
  | .pgn | .idn => 32
  | .mfg => 16
  | .nameA | .nameB => 64
  | .prio | .rbit | .dp | .pf | .ps | .sa | .len | .da => 8
  | .aac | .ig | .vsi | .vs | .nrsv | .func | .finst | .ecui => 8
  | .lane _ _ => 8

/-- The OUT result registers and lanes (10_state.md R16). -/
inductive OutReg where
  | fid | flen
  | prio | rbit | dp | pf | ps | sa | pdu2 | da | ge | pgn | len
  | name
  | aac | ig | vsi | vs | nrsv | func | finst | ecui | mfg | idn
  | cmp
  | lane (l : LaneReg) (i : Fin 8)
deriving DecidableEq, Repr

/-- Widths of the OUT registers (10_state.md R16). -/
@[reducible] def OutReg.width : OutReg → Nat
  | .fid => 29
  | .flen | .len => 4
  | .prio => 3
  | .rbit | .dp | .pdu2 => 1
  | .pf | .ps | .sa | .da | .ge => 8
  | .pgn => 18
  | .name => 64
  | .aac | .nrsv => 1
  | .ig | .ecui => 3
  | .vsi => 4
  | .vs => 7
  | .func => 8
  | .finst => 5
  | .mfg => 11
  | .idn => 21
  | .cmp => 2
  | .lane _ _ => 8

/-- Every register a host action can name (30_encoding.md R53, `reg`). -/
inductive Reg where
  | inp (r : InReg)
  | out (r : OutReg)
  | status
  | cmd
deriving DecidableEq, Repr

/-- The width of a host access: the whole register or lane (20_memory.md R35, R36);
STATUS and CMD are 8 bits (10_state.md R19, R20). -/
@[reducible] def Reg.width : Reg → Nat
  | .inp r => r.width
  | .out r => r.width
  | .status => 8
  | .cmd => 8

/-- The six result groups of the OUT file (10_state.md R17). -/
inductive Group where
  | frame | pdu | name | nfields | cmp | nbytes
deriving DecidableEq, Repr

/-- The result group each OUT register belongs to (10_state.md R17). -/
def OutReg.group : OutReg → Group
  | .fid | .flen | .lane .fdata _ => .frame
  | .prio | .rbit | .dp | .pf | .ps | .sa | .pdu2 | .da | .ge | .pgn | .len | .lane .data _ => .pdu
  | .name => .name
  | .aac | .ig | .vsi | .vs | .nrsv | .func | .finst | .ecui | .mfg | .idn => .nfields
  | .cmp => .cmp
  | .lane .nbytes _ => .nbytes

end Sys2Proof.Machine
end

