-- ==== Sys2Proof/Config.lean ====
section
/-! DEFINITION. The implementation parameters of 00_scope.md R6 and the constants of
30_encoding.md R63. -/

namespace Sys2Proof.Config

/-- `ID_BITS`, the identifier width (R6). -/
abbrev idBits : Nat := 29
/-- `PGN_BITS` (R6). -/
abbrev pgnBits : Nat := 18
/-- `NAME_BITS` (R6). -/
abbrev nameBits : Nat := 64
/-- `MAX_DATA`, data bytes in one frame (R6, R63). -/
abbrev maxData : Nat := 8
/-- `PDU2_MIN`, the first PDU2 `pdu_format` (R6, R63). -/
abbrev pdu2Min : Nat := 240
/-- `NULL_ADDR` (R63); no command gives it a meaning (40_frame_codec.md R72). -/
abbrev nullAddr : Byte := 254
/-- `GLOBAL_ADDR` (R63). -/
abbrev globalAddr : Byte := 255
/-- The largest PGN, `0x3FFFF` (40_frame_codec.md R67). -/
abbrev maxPgn : Nat := 0x3FFFF
/-- `PGN_ADDRESS_CLAIMED` (R63). -/
abbrev pgnAddressClaimed : BitVec 18 := 0x00EE00
/-- `PGN_REQUEST` (R63). -/
abbrev pgnRequest : BitVec 18 := 0x00EA00
/-- `PGN_TP_CM` (R63; the Transport Protocol is out of scope, 00_scope.md R4). -/
abbrev pgnTpCm : BitVec 18 := 0x00EC00
/-- `PGN_TP_DT` (R63; out of scope as above). -/
abbrev pgnTpDt : BitVec 18 := 0x00EB00
/-- `TP_CM_BAM` control byte (R63; out of scope as above). -/
abbrev tpCmBam : Byte := 32

/-- `REG_MAP`: the offset a platform bus gives each register. OPEN in the spec (20_memory.md R31,
R37); no rule depends on it and nothing in the model reads it (log 5). -/
opaque regMap : Machine.Reg → Nat

end Sys2Proof.Config
end

