-- ==== Sys2Proof/Machine/Formats.lean ====
section
/-! DEFINITION. The data formats the commands compute on: the 29-bit identifier, the PGN, the NAME,
its bytes and the comparison code (30_encoding.md R55, R58 to R62). -/

namespace Sys2Proof.Machine

/-- The six fields of an identifier (R55). -/
structure IdFields where
  p : BitVec 3
  rbit : BitVec 1
  dp : BitVec 1
  pf : BitVec 8
  ps : BitVec 8
  sa : BitVec 8
deriving DecidableEq, Repr

/-- `split29` (R55). -/
def split29 (id : BitVec 29) : IdFields where
  p := id.extractLsb' 26 3
  rbit := id.extractLsb' 25 1
  dp := id.extractLsb' 24 1
  pf := id.extractLsb' 16 8
  ps := id.extractLsb' 8 8
  sa := id.extractLsb' 0 8

/-- `pack29` (R55): `P ++ R ++ DP ++ PF ++ PS ++ SA`. -/
def pack29 (f : IdFields) : BitVec 29 :=
  (f.p ++ f.rbit ++ f.dp ++ f.pf ++ f.ps ++ f.sa : BitVec (3 + 1 + 1 + 8 + 8 + 8))

/-- `is_pdu2` (R58): PF 240 to 255 is PDU2, 0 to 239 is PDU1. -/
def isPdu2 (pf : BitVec 8) : Bool := decide (Config.pdu2Min ≤ pf.toNat)

/-- `pgn_of` (R59, 90_conflicts.md C1): PS is part of the PGN in PDU2 only. -/
def pgnOf (rbit dp : BitVec 1) (pf ps : BitVec 8) : BitVec 18 :=
  if isPdu2 pf then (rbit ++ dp ++ pf ++ ps : BitVec (1 + 1 + 8 + 8))
  else (rbit ++ dp ++ pf ++ 0x00#8 : BitVec (1 + 1 + 8 + 8))

/-- The ten fields of a NAME (R60). -/
structure NameFields where
  aac : BitVec 1
  ig : BitVec 3
  vsi : BitVec 4
  vs : BitVec 7
  rsv : BitVec 1
  fn : BitVec 8
  fi : BitVec 5
  ecu : BitVec 3
  mfg : BitVec 11
  idn : BitVec 21
deriving DecidableEq, Repr

/-- `name_pack` (R60). -/
def namePack (f : NameFields) : BitVec 64 :=
  (f.aac ++ f.ig ++ f.vsi ++ f.vs ++ f.rsv ++ f.fn ++ f.fi ++ f.ecu ++ f.mfg ++ f.idn :
    BitVec (1 + 3 + 4 + 7 + 1 + 8 + 5 + 3 + 11 + 21))

/-- `name_unpack` (R60). -/
def nameUnpack (n : BitVec 64) : NameFields where
  aac := n.extractLsb' 63 1
  ig := n.extractLsb' 60 3
  vsi := n.extractLsb' 56 4
  vs := n.extractLsb' 49 7
  rsv := n.extractLsb' 48 1
  fn := n.extractLsb' 40 8
  fi := n.extractLsb' 35 5
  ecu := n.extractLsb' 32 3
  mfg := n.extractLsb' 21 11
  idn := n.extractLsb' 0 21

/-- `name_to_bytes(n)[i]` (R61): lane `i` holds `n[8i+7 : 8i]`. -/
def nameByte (n : BitVec 64) (i : Fin 8) : Byte := n.extractLsb' (8 * i.val) 8

/-- `name_from_bytes` (R61, R78): `b7 ++ … ++ b0`. -/
def nameFromBytes (b0 b1 b2 b3 b4 b5 b6 b7 : Byte) : BitVec 64 :=
  (b7 ++ b6 ++ b5 ++ b4 ++ b3 ++ b2 ++ b1 ++ b0 : BitVec (8 + 8 + 8 + 8 + 8 + 8 + 8 + 8))

/-- The comparison code (R62, 41_name_codec.md R76): unsigned 64-bit. -/
def nameOrder (a b : BitVec 64) : BitVec 2 :=
  if a = b then 0b00 else if a.toNat < b.toNat then 0b01 else 0b10

end Sys2Proof.Machine
end

