-- ==== Sys2Proof/Machine/State.lean ====
section
/-! DEFINITION. The state of one JCB instance and its host: the IN operand file, the OUT result file
and STATUS (10_state.md R12), and the model's two host-side fields (log 2, log 3). Plain data. -/

namespace Sys2Proof.Machine

/-- A lane register with every lane `⊥`. -/
abbrev emptyLanes : Lanes := #v[none, none, none, none, none, none, none, none]

/-- The IN operand register file (10_state.md R14). -/
structure InFile where
  fid : RegCell 29
  flen : RegCell 4
  fdata : Lanes
  prio : RegCell 8
  rbit : RegCell 8
  dp : RegCell 8
  pf : RegCell 8
  ps : RegCell 8
  sa : RegCell 8
  len : RegCell 8
  data : Lanes
  pgn : RegCell 32
  da : RegCell 8
  aac : RegCell 8
  ig : RegCell 8
  vsi : RegCell 8
  vs : RegCell 8
  nrsv : RegCell 8
  func : RegCell 8
  finst : RegCell 8
  ecui : RegCell 8
  mfg : RegCell 16
  idn : RegCell 32
  nameA : RegCell 64
  nameB : RegCell 64
  nbytes : Lanes
deriving DecidableEq, Repr

/-- The IN file after reset: every register and lane `⊥` (10_state.md R27). -/
def InFile.empty : InFile where
  fid := none
  flen := none
  fdata := emptyLanes
  prio := none
  rbit := none
  dp := none
  pf := none
  ps := none
  sa := none
  len := none
  data := emptyLanes
  pgn := none
  da := none
  aac := none
  ig := none
  vsi := none
  vs := none
  nrsv := none
  func := none
  finst := none
  ecui := none
  mfg := none
  idn := none
  nameA := none
  nameB := none
  nbytes := emptyLanes

/-- Result group `G_FRAME` (10_state.md R16, R17). -/
structure FrameGroup where
  fid : RegCell 29
  flen : RegCell 4
  fdata : Lanes
deriving DecidableEq, Repr

/-- `G_FRAME` with every register `⊥`. -/
def FrameGroup.empty : FrameGroup := { fid := none, flen := none, fdata := emptyLanes }

/-- Result group `G_PDU` (10_state.md R16, R17). -/
structure PduGroup where
  prio : RegCell 3
  rbit : RegCell 1
  dp : RegCell 1
  pf : RegCell 8
  ps : RegCell 8
  sa : RegCell 8
  pdu2 : RegCell 1
  da : RegCell 8
  ge : RegCell 8
  pgn : RegCell 18
  len : RegCell 4
  data : Lanes
deriving DecidableEq, Repr

/-- `G_PDU` with every register `⊥`. -/
def PduGroup.empty : PduGroup where
  prio := none
  rbit := none
  dp := none
  pf := none
  ps := none
  sa := none
  pdu2 := none
  da := none
  ge := none
  pgn := none
  len := none
  data := emptyLanes

/-- Result group `G_NFIELDS` (10_state.md R16, R17). -/
structure NFieldsGroup where
  aac : RegCell 1
  ig : RegCell 3
  vsi : RegCell 4
  vs : RegCell 7
  nrsv : RegCell 1
  func : RegCell 8
  finst : RegCell 5
  ecui : RegCell 3
  mfg : RegCell 11
  idn : RegCell 21
deriving DecidableEq, Repr

/-- `G_NFIELDS` with every register `⊥`. -/
def NFieldsGroup.empty : NFieldsGroup where
  aac := none
  ig := none
  vsi := none
  vs := none
  nrsv := none
  func := none
  finst := none
  ecui := none
  mfg := none
  idn := none

/-- The OUT result register file, by result group (10_state.md R16, R17). `G_NAME` is `OUT.NAME`,
`G_CMP` is `OUT.CMP` and `G_NBYTES` is `OUT.NBYTES`. -/
structure OutFile where
  frame : FrameGroup
  pdu : PduGroup
  name : RegCell 64
  nfields : NFieldsGroup
  cmp : RegCell 2
  nbytes : Lanes
deriving DecidableEq, Repr

/-- The OUT file after reset: every register and lane `⊥` (10_state.md R27). -/
def OutFile.empty : OutFile where
  frame := .empty
  pdu := .empty
  name := none
  nfields := .empty
  cmp := none
  nbytes := emptyLanes

/-- A host action (20_memory.md R30). `WR r, v` takes `v` at the width of `r` (R32: "a model takes
`v : BitVec w`"); a write of a command word is `.wr .cmd w`. -/
inductive Action where
  | wr (r : Reg) (v : BitVec r.width)
  | rd (r : Reg)
  | reset
deriving DecidableEq, Repr

/-- One value that an `RD` action returned to the host. -/
structure ReadEvent where
  reg : Reg
  value : BitVec reg.width
deriving DecidableEq, Repr

/-- The architected errors (60_exceptions.md R83 to R86, R89). -/
inductive ErrorCause where
  | invalidPdu | invalidName | invalidFrame | illegalCommand
deriving DecidableEq, Repr

/-- One JCB instance with its host. -/
structure State where
  /-- The IN operand file, written by the host only (R15). -/
  inp : InFile
  /-- The OUT result file, written by commands only (R18). -/
  out : OutFile
  /-- STATUS (R19): ERR in bits [2:0], reserved [6:3], VALID in bit 7. -/
  status : BitVec 8
  /-- The MODEL's own field: the host's actions not yet performed, in issue order (log 2). -/
  pending : List Action
  /-- The MODEL's own field: what the host's RD actions returned, oldest first (log 3). -/
  observed : List ReadEvent
deriving DecidableEq, Repr

/-- The machine right after reset (10_state.md R27, 70_reset_and_hazards.md R105), with no host
action pending and nothing observed. -/
def State.reset : State where
  inp := .empty
  out := .empty
  status := 0x00
  pending := []
  observed := []

/-- The model faults of 60_exceptions.md R92, which the spec names for a read of `⊥` (00_scope.md R10:
"any read of it by a command or by the host is a model fault, never a value"; 93_implementation_defined.md
section 2: `fault`). Both are safe: the model stops where hardware would deliver some bits that no
source gives a value (92_eei_decisions.md D2, log 1). -/
inductive Fault where
  /-- `UnwrittenOperand(r)`: raised by a command that reads the IN register or lane `r` while it
  holds `⊥` (R92; each command's own rule, 40_frame_codec.md R65 to R67 and 41_name_codec.md R74 to
  R78, names it). Safe. -/
  | unwrittenOperand (r : InReg)
  /-- `UnwrittenRead(r)`: raised by the host's `RD` of an IN or OUT register or lane `r` that holds
  `⊥` (R92, 20_memory.md R33). Safe. -/
  | unwrittenRead (r : Reg)
deriving DecidableEq, Repr

/-- The refusals: actions that have no meaning on this hardware (60_exceptions.md R82, R93). -/
inductive Refusal where
  /-- A command without a meaning in this model: raised by no arm of `exec`. Safe. -/
  | notModelled (mnemonic : String)
  /-- `WriteToReadOnly(r)`: raised by a `WR` to an OUT register, an OUT lane or STATUS (R93).
  Safe. -/
  | writeToReadOnly (r : Reg)
  /-- `ReadOfWriteOnly(CMD)`: raised by a `RD` of CMD (R93). Safe. -/
  | readOfWriteOnly
deriving DecidableEq, Repr

/-- The outcome of a command or of a host action (60_exceptions.md R82). -/
abbrev Result := Host.Outcome State Fault Refusal

end Sys2Proof.Machine
end

