-- ==== Sys2Proof/Machine/Flags.lean ====
section
/-! DEFINITION. STATUS and the error codes (10_state.md R19, 60_exceptions.md R89). -/

namespace Sys2Proof.Machine

/-- `STATUS.ERR`, bits [2:0]. -/
def statusErr (st : BitVec 8) : BitVec 3 := st.extractLsb' 0 3

/-- STATUS bits [6:3], reserved. -/
def statusReserved (st : BitVec 8) : BitVec 4 := st.extractLsb' 3 4

/-- `STATUS.VALID`, bit 7. -/
def statusValid (st : BitVec 8) : BitVec 1 := st.extractLsb' 7 1

/-- The codes of the architected errors (R89); 0 is success. -/
def ErrorCause.code : ErrorCause → BitVec 3
  | .invalidPdu => 1
  | .invalidName => 2
  | .invalidFrame => 3
  | .illegalCommand => 4

/-- `STATUS.VALID <- 1 ; STATUS.ERR <- code`. Only the two fields are written; the reserved bits keep
their content, which is 0 in every state a run reaches (`State.Inv` in Safety.lean). -/
def statusCommit (code : BitVec 3) (st : BitVec 8) : BitVec 8 :=
  (1#1 ++ statusReserved st ++ code : BitVec (1 + 4 + 3))

end Sys2Proof.Machine
end

