-- ==== Sys2Proof/Machine/Ops.lean ====
section
/-! DEFINITION. The named operations over the register files, and the two ways a command ends:
`raise` (60_exceptions.md R90), the only exception entry of this hardware, and `succeed` (R91).
There is no trap entry and no return from one (R97), and no memory (10_state.md R22). -/

namespace Sys2Proof.Machine

/-- The content of a lane register of IN. -/
def InFile.lanes (f : InFile) : LaneReg → Lanes
  | .fdata => f.fdata
  | .data => f.data
  | .nbytes => f.nbytes

/-- The content of an IN register or lane. -/
def InFile.get (f : InFile) : (r : InReg) → RegCell r.width
  | .fid => f.fid
  | .flen => f.flen
  | .prio => f.prio
  | .rbit => f.rbit
  | .dp => f.dp
  | .pf => f.pf
  | .ps => f.ps
  | .sa => f.sa
  | .len => f.len
  | .pgn => f.pgn
  | .da => f.da
  | .aac => f.aac
  | .ig => f.ig
  | .vsi => f.vsi
  | .vs => f.vs
  | .nrsv => f.nrsv
  | .func => f.func
  | .finst => f.finst
  | .ecui => f.ecui
  | .mfg => f.mfg
  | .idn => f.idn
  | .nameA => f.nameA
  | .nameB => f.nameB
  | .lane l i => (f.lanes l)[i]

/-- `IN.r <- v` (20_memory.md R32): no other register changes. -/
def InFile.set (f : InFile) : (r : InReg) → BitVec r.width → InFile
  | .fid, v => { f with fid := some v }
  | .flen, v => { f with flen := some v }
  | .prio, v => { f with prio := some v }
  | .rbit, v => { f with rbit := some v }
  | .dp, v => { f with dp := some v }
  | .pf, v => { f with pf := some v }
  | .ps, v => { f with ps := some v }
  | .sa, v => { f with sa := some v }
  | .len, v => { f with len := some v }
  | .pgn, v => { f with pgn := some v }
  | .da, v => { f with da := some v }
  | .aac, v => { f with aac := some v }
  | .ig, v => { f with ig := some v }
  | .vsi, v => { f with vsi := some v }
  | .vs, v => { f with vs := some v }
  | .nrsv, v => { f with nrsv := some v }
  | .func, v => { f with func := some v }
  | .finst, v => { f with finst := some v }
  | .ecui, v => { f with ecui := some v }
  | .mfg, v => { f with mfg := some v }
  | .idn, v => { f with idn := some v }
  | .nameA, v => { f with nameA := some v }
  | .nameB, v => { f with nameB := some v }
  | .lane .fdata i, v => { f with fdata := f.fdata.set i (some v) }
  | .lane .data i, v => { f with data := f.data.set i (some v) }
  | .lane .nbytes i, v => { f with nbytes := f.nbytes.set i (some v) }

/-- The content of a lane register of OUT. -/
def OutFile.lanes (f : OutFile) : LaneReg → Lanes
  | .fdata => f.frame.fdata
  | .data => f.pdu.data
  | .nbytes => f.nbytes

/-- The content of an OUT register or lane. -/
def OutFile.get (f : OutFile) : (r : OutReg) → RegCell r.width
  | .fid => f.frame.fid
  | .flen => f.frame.flen
  | .prio => f.pdu.prio
  | .rbit => f.pdu.rbit
  | .dp => f.pdu.dp
  | .pf => f.pdu.pf
  | .ps => f.pdu.ps
  | .sa => f.pdu.sa
  | .pdu2 => f.pdu.pdu2
  | .da => f.pdu.da
  | .ge => f.pdu.ge
  | .pgn => f.pdu.pgn
  | .len => f.pdu.len
  | .name => f.name
  | .aac => f.nfields.aac
  | .ig => f.nfields.ig
  | .vsi => f.nfields.vsi
  | .vs => f.nfields.vs
  | .nrsv => f.nfields.nrsv
  | .func => f.nfields.func
  | .finst => f.nfields.finst
  | .ecui => f.nfields.ecui
  | .mfg => f.nfields.mfg
  | .idn => f.nfields.idn
  | .cmp => f.cmp
  | .lane l i => (f.lanes l)[i]

/-- Every register of a result group becomes `⊥`; the other groups keep their content (R90). -/
def OutFile.clear (f : OutFile) : Group → OutFile
  | .frame => { f with frame := .empty }
  | .pdu => { f with pdu := .empty }
  | .name => { f with name := none }
  | .nfields => { f with nfields := .empty }
  | .cmp => { f with cmp := none }
  | .nbytes => { f with nbytes := emptyLanes }

/-- The result group a command writes (10_state.md R17, 30_encoding.md R50). -/
def resultGroup : Instr → Group
  | .frameDecode => .pdu
  | .frameEncode => .frame
  | .pgnPack => .frame
  | .nameDecode => .nfields
  | .nameEncode => .name
  | .nameCompare => .cmp
  | .nameToBytes => .nbytes
  | .nameFromBytes => .name

/-- The part of OUT that an error makes `⊥`: the command's result group, or nothing for an illegal
word, which is no command (R90). -/
def clearFor (f : OutFile) : Option Instr → OutFile
  | some i => f.clear (resultGroup i)
  | none => f

/-- `raise E` in the command `i`, or for an illegal word in none (R90). -/
def raise (e : ErrorCause) (i : Option Instr) (s : State) : State :=
  { s with out := clearFor s.out i, status := statusCommit e.code s.status }

/-- The success commit (R91): the result group takes its new content, `ERR <- 0`, `VALID <- 1`. -/
def succeed (out : OutFile) (s : State) : State :=
  { s with out := out, status := statusCommit 0 s.status }

/-- The reset event (70_reset_and_hazards.md R105). The host's own side, its remaining actions and
what it has observed, is no part of the JCB and stays (log 3). -/
def resetEvent (s : State) : State :=
  { State.reset with pending := s.pending, observed := s.observed }

end Sys2Proof.Machine
end

