-- ==== Sys2Proof/Machine/Operands.lean ====
section
/-! DEFINITION. Reading operands (00_scope.md R9, 60_exceptions.md R92, R94). A command has no
immediate operand: each is an IN register or lane (30_encoding.md R47). -/

namespace Sys2Proof.Machine

/-- `IN.r` as an operand: the value, or the model fault `UnwrittenOperand(r)` (R9, R92). -/
def operand (r : InReg) (s : State) (k : BitVec r.width → Result) : Result :=
  match s.inp.get r with
  | some v => k v
  | none => .fault (.unwrittenOperand r)

/-- The lane numbers in the order a command reads them. -/
def laneOrder : List (Fin 8) := [0, 1, 2, 3, 4, 5, 6, 7]

/-- The first lane below `n` that holds `⊥`. -/
def firstUnwritten (l : Lanes) (n : Nat) : Option (Fin 8) :=
  laneOrder.find? fun i => decide (i.val < n) && (l[i]).isNone

/-- A lane register given lane by lane. -/
def tabulate (f : Fin 8 → RegCell 8) : Lanes := #v[f 0, f 1, f 2, f 3, f 4, f 5, f 6, f 7]

/-- The lanes below `n`, and `⊥` at or above it (30_encoding.md R57: no padding). -/
def keepBelow (l : Lanes) (n : Nat) : Lanes := tabulate fun i => if i.val < n then l[i] else none

/-- `for i in 0 .. n-1: d[i] <- IN.l[i]`: reads exactly the lanes below `n`, in order; a `⊥` among
them is the model fault `UnwrittenOperand` (R92); lanes at or above `n` are not read
(20_memory.md R45). -/
def laneOperands (l : LaneReg) (n : Nat) (s : State) (k : Lanes → Result) : Result :=
  match firstUnwritten (s.inp.lanes l) n with
  | some i => .fault (.unwrittenOperand (.lane l i))
  | none => k (keepBelow (s.inp.lanes l) n)

end Sys2Proof.Machine
end

