-- ==== Sys2Proof/Machine/FrameCodec.lean ====
section
/-! DEFINITION. The Frame Codec Unit: FRAME_DECODE, FRAME_ENCODE and PGN_PACK
(40_frame_codec.md). -/

namespace Sys2Proof.Machine

/-- What FRAME_DECODE writes to `G_PDU` on success (R65). -/
def decodedPdu (id : BitVec 29) (n : BitVec 4) (d : Lanes) : PduGroup where
  prio := some (split29 id).p
  rbit := some (split29 id).rbit
  dp := some (split29 id).dp
  pf := some (split29 id).pf
  ps := some (split29 id).ps
  sa := some (split29 id).sa
  pdu2 := some (if isPdu2 (split29 id).pf then 1 else 0)
  da := if isPdu2 (split29 id).pf then none else some (split29 id).ps
  ge := if isPdu2 (split29 id).pf then some (split29 id).ps else none
  pgn := some (pgnOf (split29 id).rbit (split29 id).dp (split29 id).pf (split29 id).ps)
  len := some n
  data := d

/-- FRAME_DECODE (R65). -/
def execFrameDecode (s : State) : Result :=
  operand .fid s fun id =>
  operand .flen s fun n =>
  if Config.maxData < n.toNat then .next (raise .invalidFrame (some .frameDecode) s)
  else laneOperands .fdata n.toNat s fun d =>
    .next (succeed { s.out with pdu := decodedPdu id n d } s)

/-- The end that FRAME_ENCODE and PGN_PACK share: read the data lanes, then write `G_FRAME`
(R66, R67). -/
def frameResult (f : IdFields) (n : BitVec 8) (s : State) : Result :=
  laneOperands .data n.toNat s fun d =>
    .next (succeed { s.out with
      frame := { fid := some (pack29 f), flen := some (n.extractLsb' 0 4), fdata := d } } s)

/-- FRAME_ENCODE (R66). -/
def execFrameEncode (s : State) : Result :=
  operand .prio s fun p =>
  operand .rbit s fun r =>
  operand .dp s fun dp =>
  operand .pf s fun pf =>
  operand .ps s fun ps =>
  operand .sa s fun sa =>
  operand .len s fun n =>
  if 7 < p.toNat ∨ 1 < r.toNat ∨ 1 < dp.toNat ∨ Config.maxData < n.toNat then
    .next (raise .invalidPdu (some .frameEncode) s)
  else frameResult
    { p := p.extractLsb' 0 3, rbit := r.extractLsb' 0 1, dp := dp.extractLsb' 0 1,
      pf := pf, ps := ps, sa := sa } n s

/-- The PS byte that PGN_PACK takes for a PGN and a destination, or `none` where it raises
`InvalidPdu` (R67): in PDU2 the group extension, for the global destination only; in PDU1 the
destination, for a PGN with a zero low byte only. -/
def pgnPackPs (g : BitVec 32) (da : BitVec 8) : Option (BitVec 8) :=
  if isPdu2 (g.extractLsb' 8 8) then
    if da ≠ Config.globalAddr then none else some (g.extractLsb' 0 8)
  else
    if g.extractLsb' 0 8 ≠ 0x00 then none else some da

/-- PGN_PACK (R67). -/
def execPgnPack (s : State) : Result :=
  operand .prio s fun p =>
  operand .pgn s fun g =>
  operand .da s fun da =>
  operand .sa s fun sa =>
  operand .len s fun n =>
  if 7 < p.toNat ∨ Config.maxPgn < g.toNat ∨ Config.maxData < n.toNat then
    .next (raise .invalidPdu (some .pgnPack) s)
  else match pgnPackPs g da with
    | none => .next (raise .invalidPdu (some .pgnPack) s)
    | some ps => frameResult
        { p := p.extractLsb' 0 3, rbit := g.extractLsb' 17 1, dp := g.extractLsb' 16 1,
          pf := g.extractLsb' 8 8, ps := ps, sa := sa } n s

end Sys2Proof.Machine
end

