-- ==== Sys2Proof/Machine/NameCodec.lean ====
section
/-! DEFINITION. The NAME Codec Unit: NAME_DECODE, NAME_ENCODE, NAME_COMPARE, NAME_TO_BYTES and
NAME_FROM_BYTES (41_name_codec.md). -/

namespace Sys2Proof.Machine

/-- What NAME_DECODE writes to `G_NFIELDS` (R74). -/
def decodedName (n : BitVec 64) : NFieldsGroup where
  aac := some (nameUnpack n).aac
  ig := some (nameUnpack n).ig
  vsi := some (nameUnpack n).vsi
  vs := some (nameUnpack n).vs
  nrsv := some (nameUnpack n).rsv
  func := some (nameUnpack n).fn
  finst := some (nameUnpack n).fi
  ecui := some (nameUnpack n).ecu
  mfg := some (nameUnpack n).mfg
  idn := some (nameUnpack n).idn

/-- NAME_DECODE (R74). -/
def execNameDecode (s : State) : Result :=
  operand .nameA s fun n => .next (succeed { s.out with nfields := decodedName n } s)

/-- NAME_ENCODE (R75). -/
def execNameEncode (s : State) : Result :=
  operand .aac s fun aac =>
  operand .ig s fun ig =>
  operand .vsi s fun vsi =>
  operand .vs s fun vs =>
  operand .nrsv s fun rsv =>
  operand .func s fun fn =>
  operand .finst s fun fi =>
  operand .ecui s fun ecu =>
  operand .mfg s fun mfg =>
  operand .idn s fun idn =>
  if 1 < aac.toNat ∨ 7 < ig.toNat ∨ 15 < vsi.toNat ∨ 127 < vs.toNat ∨ 1 < rsv.toNat ∨
      31 < fi.toNat ∨ 7 < ecu.toNat ∨ 2047 < mfg.toNat ∨ 0x1FFFFF < idn.toNat then
    .next (raise .invalidName (some .nameEncode) s)
  else .next (succeed { s.out with name := some (namePack
    { aac := aac.extractLsb' 0 1, ig := ig.extractLsb' 0 3, vsi := vsi.extractLsb' 0 4,
      vs := vs.extractLsb' 0 7, rsv := rsv.extractLsb' 0 1, fn := fn,
      fi := fi.extractLsb' 0 5, ecu := ecu.extractLsb' 0 3, mfg := mfg.extractLsb' 0 11,
      idn := idn.extractLsb' 0 21 }) } s)

/-- NAME_COMPARE (R76). -/
def execNameCompare (s : State) : Result :=
  operand .nameA s fun a =>
  operand .nameB s fun b =>
  .next (succeed { s.out with cmp := some (nameOrder a b) } s)

/-- NAME_TO_BYTES (R77). -/
def execNameToBytes (s : State) : Result :=
  operand .nameA s fun n =>
  .next (succeed { s.out with nbytes := tabulate fun i => some (nameByte n i) } s)

/-- NAME_FROM_BYTES (R78). All eight lanes are read, in order, before anything else (R94). -/
def execNameFromBytes (s : State) : Result :=
  operand (.lane .nbytes 0) s fun b0 =>
  operand (.lane .nbytes 1) s fun b1 =>
  operand (.lane .nbytes 2) s fun b2 =>
  operand (.lane .nbytes 3) s fun b3 =>
  operand (.lane .nbytes 4) s fun b4 =>
  operand (.lane .nbytes 5) s fun b5 =>
  operand (.lane .nbytes 6) s fun b6 =>
  operand (.lane .nbytes 7) s fun b7 =>
  .next (succeed { s.out with name := some (nameFromBytes b0 b1 b2 b3 b4 b5 b6 b7) } s)

end Sys2Proof.Machine
end

