-- ==== Sys2Proof/Machine/Dispatch.lean ====
section
/-! DEFINITION. One arm per command, each one call of its meaning (30_encoding.md R50). -/

namespace Sys2Proof.Machine

def exec (i : Instr) (s : State) : Host.Outcome State Fault Refusal :=
  match i with
  | .frameDecode => Sys2Proof.Machine.execFrameDecode s
  | .frameEncode => Sys2Proof.Machine.execFrameEncode s
  | .pgnPack => Sys2Proof.Machine.execPgnPack s
  | .nameDecode => Sys2Proof.Machine.execNameDecode s
  | .nameEncode => Sys2Proof.Machine.execNameEncode s
  | .nameCompare => Sys2Proof.Machine.execNameCompare s
  | .nameToBytes => Sys2Proof.Machine.execNameToBytes s
  | .nameFromBytes => Sys2Proof.Machine.execNameFromBytes s

end Sys2Proof.Machine
end

