-- ==== Sys2Proof/Machine/HostAccess.lean ====
section
/-! DEFINITION. What each host action does (20_memory.md R30, R32, R33; 60_exceptions.md R82,
R93). -/

namespace Sys2Proof.Machine

/-- `Execute(w)` (30_encoding.md R48): run the command `w` selects, or raise `IllegalCommand`, which
writes STATUS only (60_exceptions.md R86, R90). -/
def execute (w : BitVec 8) (s : State) : Result :=
  match decode w with
  | .ok i => exec i s
  | .error _ => .next (raise .illegalCommand none s)

/-- `WR(r, v)` (R32). -/
def hostWrite (r : Reg) (v : BitVec r.width) (s : State) : Result :=
  match r, v with
  | .inp q, v => .next { s with inp := s.inp.set q v }
  | .cmd, w => execute w s
  | .out q, _ => .refused (.writeToReadOnly (.out q))
  | .status, _ => .refused (.writeToReadOnly .status)

/-- The content of a register that the host may read (R33). CMD has none (10_state.md R20). -/
def content (s : State) : (r : Reg) → RegCell r.width
  | .inp q => s.inp.get q
  | .out q => s.out.get q
  | .status => some s.status
  | .cmd => none

/-- `RD(r)` (R33): a read changes no register; the value goes to the host. -/
def hostRead (r : Reg) (s : State) : Result :=
  if r = .cmd then .refused .readOfWriteOnly
  else match content s r with
    | none => .fault (.unwrittenRead r)
    | some v => .next { s with observed := s.observed ++ [{ reg := r, value := v }] }

/-- One host action (R30). -/
def act (a : Action) (s : State) : Result :=
  match a with
  | .wr r v => hostWrite r v s
  | .rd r => hostRead r s
  | .reset => .next (resetEvent s)

/-- Issue the pending actions: the first one is performed on the state in which it is no longer
pending (20_memory.md R39). With none pending nothing happens, since the JCB never acts on its own
(R28; log 4). -/
def actNext (s : State) : Result :=
  match s.pending with
  | [] => .next s
  | a :: rest => act a { s with pending := rest }

/-- The action that writes a table word to CMD. -/
def commandAction (nbits w : Nat) : Action := .wr .cmd (BitVec.ofNat 8 (tableWord nbits w))

end Sys2Proof.Machine
end

