-- ==== Sys2Proof/Machine/Step.lean ====
section
/-! DEFINITION. One step of the machine: the host's next action takes effect, whole
(20_memory.md R39, 10_state.md R24). -/

namespace Sys2Proof.Machine

/-- One step: the first pending host action takes effect. -/
def step (s : State) : Host.Outcome State Fault Refusal := actNext s

/-- `s` with the host about to write the table word to CMD, before the actions already pending. CMD is
where the JCB takes its next command from (10_state.md R20, R23; log 2). -/
def State.withFetchWord (s : State) (nbits w : Nat) : State :=
  { s with pending := commandAction nbits w :: s.pending }

end Sys2Proof.Machine
end

