-- ==== Sys2Proof/Machine/System.lean ====
section
/-! DEFINITION. Several JCB instances in one system (60_exceptions.md R100): each has its own IN, OUT,
STATUS and host, and nothing is shared (log 12). -/

namespace Sys2Proof.Machine

/-- Instance `k` takes one step; the others stay. With no instance `k`, nothing happens. -/
def stepInstance (k : Nat) (sys : List State) : Host.Outcome (List State) Fault Refusal :=
  match sys[k]? with
  | none => .next sys
  | some s =>
    match step s with
    | .next t => .next (sys.set k t)
    | .fault f => .fault f
    | .refused r => .refused r

end Sys2Proof.Machine
end

