-- ==== Sys2Proof/Safety.lean ====
section
/-! DEFINITION. What a good run is (70_reset_and_hazards.md R112), and the states that a run can
reach (10_state.md R17, R19; 93_implementation_defined.md section 2). -/

namespace Sys2Proof.Machine

/-- Perform the actions `as` from the state `s`, one step for each (R112). -/
def runActions (as : List Action) (s : State) : Result :=
  Host.Core.run Sys2Proof.core as.length { s with pending := as }

/-- A run of host actions from reset ends well when no fault and no refusal occurs in it (R112). -/
def EndsWell (as : List Action) : Prop := ∃ t, runActions as State.reset = .next t

/-- Exactly the lanes below `n` hold a byte. -/
abbrev LanesBelow (l : Lanes) (n : Nat) : Prop := ∀ i : Fin 8, (l[i]).isSome = decide (i.val < n)

/-- `G_FRAME` is `⊥` as a whole or holds one frame (40_frame_codec.md R66, R67). -/
def FrameGroup.Coherent (g : FrameGroup) : Prop :=
  g = .empty ∨
  ∃ id n, g.fid = some id ∧ g.flen = some n ∧ n.toNat ≤ 8 ∧ LanesBelow g.fdata n.toNat

/-- `G_PDU` is `⊥` as a whole or holds one decoded PDU, of kind PDU1 or PDU2
(40_frame_codec.md R65, 30_encoding.md R58, R59). -/
def PduGroup.Coherent (g : PduGroup) : Prop :=
  g = .empty ∨
  ∃ p rbit dp pf ps sa n,
    g.prio = some p ∧ g.rbit = some rbit ∧ g.dp = some dp ∧ g.pf = some pf ∧ g.ps = some ps ∧
    g.sa = some sa ∧ g.len = some n ∧ n.toNat ≤ 8 ∧ LanesBelow g.data n.toNat ∧
    (pf.toNat < 240 → g.pdu2 = some 0 ∧ g.da = some ps ∧ g.ge = none ∧
      g.pgn = some (rbit ++ dp ++ pf ++ 0x00#8)) ∧
    (240 ≤ pf.toNat → g.pdu2 = some 1 ∧ g.ge = some ps ∧ g.da = none ∧
      g.pgn = some (rbit ++ dp ++ pf ++ ps))

/-- `G_NFIELDS` is `⊥` as a whole or holds all ten fields (41_name_codec.md R74). -/
def NFieldsGroup.Coherent (g : NFieldsGroup) : Prop :=
  g = .empty ∨
  (g.aac.isSome ∧ g.ig.isSome ∧ g.vsi.isSome ∧ g.vs.isSome ∧ g.nrsv.isSome ∧ g.func.isSome ∧
    g.finst.isSome ∧ g.ecui.isSome ∧ g.mfg.isSome ∧ g.idn.isSome)

/-- What every state of a run satisfies: STATUS codes 5 to 7 and its reserved bits are never written
(10_state.md R19), before the first command OUT is `⊥` (R27), `OUT.CMP` is never 0b11
(30_encoding.md R62), and each result group is `⊥` or holds one whole result (R17). -/
structure State.Inv (s : State) : Prop where
  reserved : statusReserved s.status = 0
  err : (statusErr s.status).toNat ≤ 4
  unused : statusValid s.status = 0 → statusErr s.status = 0 ∧ s.out = .empty
  frame : s.out.frame.Coherent
  pdu : s.out.pdu.Coherent
  nfields : s.out.nfields.Coherent
  cmp : s.out.cmp ≠ some 0b11
  nbytes : LanesBelow s.out.nbytes 0 ∨ LanesBelow s.out.nbytes 8

/-- A command's commit wrote STATUS: `ERR = c`, `VALID = 1`, the reserved bits as before
(60_exceptions.md R90, R91). -/
def Committed (c : BitVec 3) (s t : State) : Prop :=
  t.status.extractLsb' 0 3 = c ∧ t.status.extractLsb' 7 1 = 1 ∧
  t.status.extractLsb' 3 4 = s.status.extractLsb' 3 4

/-- From `s` to `t` only STATUS and the registers of result group `g` may differ
(10_state.md R15, R17). -/
def OnlyGroup (g : Group) (s t : State) : Prop :=
  t.inp = s.inp ∧ (∀ q : OutReg, q.group ≠ g → t.out.get q = s.out.get q) ∧
  t.pending = s.pending ∧ t.observed = s.observed

/-- The error commit in a command of result group `g` (60_exceptions.md R90). -/
def RaisedIn (g : Group) (c : BitVec 3) (s t : State) : Prop :=
  Committed c s t ∧ OnlyGroup g s t ∧ ∀ q : OutReg, q.group = g → t.out.get q = none

/-- The success commit of a command of result group `g`, but for the group's new content
(60_exceptions.md R91). -/
def SucceededIn (g : Group) (s t : State) : Prop := Committed 0 s t ∧ OnlyGroup g s t

/-- The command `i` reads the operands `ops` in this order before anything else: the first that
holds `⊥` is the one its model fault names (60_exceptions.md R92, R94). -/
def FirstUnwrittenFaults (i : Instr) (ops : List InReg) (s : State) : Prop :=
  ∀ before r after, ops = before ++ r :: after →
    (∀ q ∈ before, (s.inp.get q).isSome) → s.inp.get r = none →
    exec i s = .fault (.unwrittenOperand r)

/-- With length `n`, the first lane of `l` below `n` that holds `⊥` is the one the model fault of
the command `i` names (60_exceptions.md R92, R94). -/
def FirstUnwrittenLaneFaults (i : Instr) (l : LaneReg) (n : Nat) (s : State) : Prop :=
  ∀ k : Fin 8, k.val < n → (∀ j : Fin 8, j < k → ((s.inp.lanes l)[j]).isSome) →
    (s.inp.lanes l)[k] = none → exec i s = .fault (.unwrittenOperand (.lane l k))

/-- Every lane of `l` below `n` is written. -/
abbrev LanesWritten (l : LaneReg) (n : Nat) (s : State) : Prop :=
  ∀ k : Fin 8, k.val < n → ((s.inp.lanes l)[k]).isSome

/-- The operands a command reads whatever their values are (30_encoding.md R50, "reads"); the data
lanes below a length come after the range checks (60_exceptions.md R94) and are `laneOperand`. -/
def scalarOperands : Instr → List InReg
  | .frameDecode => [.fid, .flen]
  | .frameEncode => [.prio, .rbit, .dp, .pf, .ps, .sa, .len]
  | .pgnPack => [.prio, .pgn, .da, .sa, .len]
  | .nameDecode => [.nameA]
  | .nameEncode => [.aac, .ig, .vsi, .vs, .nrsv, .func, .finst, .ecui, .mfg, .idn]
  | .nameCompare => [.nameA, .nameB]
  | .nameToBytes => [.nameA]
  | .nameFromBytes => laneOrder.map (.lane .nbytes)

/-- The lane register a command reads below a length, and that length (R50, R65 to R67). -/
def laneOperand (s : State) : Instr → Option (LaneReg × Nat)
  | .frameDecode => s.inp.flen.map fun n => (.fdata, n.toNat)
  | .frameEncode => s.inp.len.map fun n => (.data, n.toNat)
  | .pgnPack => s.inp.len.map fun n => (.data, n.toNat)
  | .nameDecode => none
  | .nameEncode => none
  | .nameCompare => none
  | .nameToBytes => none
  | .nameFromBytes => none

/-- The host has done its duty for the command `i` (20_memory.md R44, 70_reset_and_hazards.md R107):
every operand is written, and every lane below a legal length. -/
def OperandsWritten (i : Instr) (s : State) : Prop :=
  (∀ q ∈ scalarOperands i, (s.inp.get q).isSome) ∧
  ∀ l n, laneOperand s i = some (l, n) → n ≤ 8 → LanesWritten l n s

end Sys2Proof.Machine
end

