-- ==== Sys2Proof/Machine/HostProgram.lean ====
section
/-! DEFINITION. Host program lines and what they stand for (30_encoding.md R53, R54). They are a way
to write host actions and add nothing to the machine (92_eei_decisions.md D25). -/

namespace Sys2Proof.Machine

/-- One line of a host program (R53), with its numbers as written. `cmd` and `wrl` are the two
pseudo-actions of R54; `blank` is a line with no action. The number that may follow `RD r =` states
the value the rules give and is no part of the action. -/
inductive HostLine where
  | wr (reg : Reg) (v : Nat)
  | rd (reg : Reg) (stated : Option Nat)
  | cmd (i : Instr)
  | wrl (l : LaneReg) (bytes : List Nat)
  | reset
  | blank
deriving DecidableEq, Repr

/-- The actions a line stands for (R54), for a well-formed line (`HostLine.wf`). -/
def HostLine.expand : HostLine → List Action
  | .wr reg v => [.wr reg (BitVec.ofNat _ v)]
  | .rd reg _ => [.rd reg]
  | .cmd i => [.wr .cmd (encode i)]
  | .wrl l bytes =>
    (laneOrder.zip bytes).map fun p => .wr (.inp (.lane l p.1)) (BitVec.ofNat _ p.2)
  | .reset => [.reset]
  | .blank => []

/-- The actions of a program, in the order of its lines. -/
def expandProgram (p : List HostLine) : List Action := p.flatMap HostLine.expand

end Sys2Proof.Machine
end

