-- ==== Sys2Proof/WellFormed.lean ====
section
/-! DEFINITION. Well-formedness: of commands, which have no operand to check (30_encoding.md R46), and
of host program lines (R53, R54, 20_memory.md R32). -/

namespace Sys2Proof

/-- Every command is well-formed: the command word has no operand field (R46, R47). -/
def Instr.wf : Instr → Bool
  | .frameDecode => true
  | .frameEncode => true
  | .pgnPack => true
  | .nameDecode => true
  | .nameEncode => true
  | .nameCompare => true
  | .nameToBytes => true
  | .nameFromBytes => true

/-- A number fits a register of width `w` (20_memory.md R32: `v < 2^w`). -/
def fits (w v : Nat) : Bool := decide (v < 2 ^ w)

/-- A line is well-formed when each number fits its register and a `WRL` gives one to eight bytes
(30_encoding.md R54: `k ≤ 7`). -/
def Machine.HostLine.wf : Machine.HostLine → Bool
  | .wr reg v => fits reg.width v
  | .rd _ none => true
  | .rd reg (some n) => fits reg.width n
  | .cmd i => i.wf
  | .wrl _ bytes => decide (1 ≤ bytes.length) && decide (bytes.length ≤ 8) && bytes.all (fits 8)
  | .reset => true
  | .blank => true

end Sys2Proof
end

