-- ==== Sys2Proof/Certificates/Slice0/Obligations.lean ====
section
/-! DEFINITION. The statements for the provers, from the numbered rules of spec/. -/

open Sys2Proof Sys2Proof.Machine

/-- The words of the command map (30_encoding.md R50) and the 248 illegal words (R51). -/
def Obligations.CommandWordDecoding : Prop :=
  decode 0b00000001 = .ok .frameDecode ∧ decode 0b00000010 = .ok .frameEncode ∧
  decode 0b00000011 = .ok .pgnPack ∧ decode 0b00000100 = .ok .nameDecode ∧
  decode 0b00000101 = .ok .nameEncode ∧ decode 0b00000110 = .ok .nameCompare ∧
  decode 0b00000111 = .ok .nameToBytes ∧ decode 0b00001000 = .ok .nameFromBytes ∧
  ∀ w : BitVec 8, w.extractLsb' 4 4 ≠ 0 ∨ w.extractLsb' 0 4 = 0 ∨ 9 ≤ (w.extractLsb' 0 4).toNat →
    (decode w).toOption = none

/-- Each command has exactly one word (R50), so decoding and encoding agree both ways. -/
def Obligations.DecodeEncodeAgree : Prop :=
  ∀ (i : Instr) (w : BitVec 8), i.wf = true ∧ (encode i = w ↔ decode w = .ok i)

/-- A step on a pending `WR CMD, w` whose word decodes to `i` is `exec i` on the state in which that
action is no longer pending (10_state.md R20, R24); the same for a fetched table word. -/
def Obligations.StepRunsTheDecodedCommand : Prop :=
  (∀ (s : State) (w : BitVec 8) (rest : List Action) (i : Instr),
    s.pending = .wr .cmd w :: rest → decode w = .ok i →
    step s = exec i { s with pending := rest }) ∧
  ∀ (s : State) (w : Nat) (i : Instr),
    decodeTableWord 8 w = some i → step (s.withFetchWord 8 w) = exec i s

/-- R86: the illegal words raise `IllegalCommand`, which writes STATUS only. -/
def Obligations.IllegalWordWritesStatusOnly : Prop :=
  ∀ (s : State) (w : BitVec 8),
    w.extractLsb' 4 4 ≠ 0 ∨ w.extractLsb' 0 4 = 0 ∨ 9 ≤ (w.extractLsb' 0 4).toNat →
    ∃ t, act (.wr .cmd w) s = .next t ∧ Committed 4 s t ∧ t.inp = s.inp ∧ t.out = s.out ∧
      t.pending = s.pending ∧ t.observed = s.observed

/-- R65, the whole rule of FRAME_DECODE. -/
def Obligations.FrameDecodeFollowsItsRule : Prop :=
  ∀ s : State, FirstUnwrittenFaults .frameDecode [.fid, .flen] s ∧
    ∀ id n, s.inp.fid = some id → s.inp.flen = some n →
      (8 < n.toNat → ∃ t, exec .frameDecode s = .next t ∧ RaisedIn .pdu 3 s t) ∧
      (n.toNat ≤ 8 → FirstUnwrittenLaneFaults .frameDecode .fdata n.toNat s) ∧
      (n.toNat ≤ 8 → LanesWritten .fdata n.toNat s →
        ∃ t, exec .frameDecode s = .next t ∧ SucceededIn .pdu s t ∧
          t.out.pdu.prio = some (id.extractLsb' 26 3) ∧
          t.out.pdu.rbit = some (id.extractLsb' 25 1) ∧
          t.out.pdu.dp = some (id.extractLsb' 24 1) ∧
          t.out.pdu.pf = some (id.extractLsb' 16 8) ∧
          t.out.pdu.ps = some (id.extractLsb' 8 8) ∧
          t.out.pdu.sa = some (id.extractLsb' 0 8) ∧
          t.out.pdu.len = some n ∧
          (∀ k : Fin 8, t.out.pdu.data[k] = if k.val < n.toNat then s.inp.fdata[k] else none) ∧
          ((id.extractLsb' 16 8).toNat < 240 →
            t.out.pdu.pdu2 = some 0 ∧ t.out.pdu.da = some (id.extractLsb' 8 8) ∧
            t.out.pdu.ge = none ∧ t.out.pdu.pgn = some (id.extractLsb' 16 10 ++ 0x00#8)) ∧
          (240 ≤ (id.extractLsb' 16 8).toNat →
            t.out.pdu.pdu2 = some 1 ∧ t.out.pdu.ge = some (id.extractLsb' 8 8) ∧
            t.out.pdu.da = none ∧ t.out.pdu.pgn = some (id.extractLsb' 8 18)))

/-- R66, the whole rule of FRAME_ENCODE. -/
def Obligations.FrameEncodeFollowsItsRule : Prop :=
  ∀ s : State, FirstUnwrittenFaults .frameEncode [.prio, .rbit, .dp, .pf, .ps, .sa, .len] s ∧
    ∀ p r dp pf ps sa n, s.inp.prio = some p → s.inp.rbit = some r → s.inp.dp = some dp →
      s.inp.pf = some pf → s.inp.ps = some ps → s.inp.sa = some sa → s.inp.len = some n →
      (7 < p.toNat ∨ 1 < r.toNat ∨ 1 < dp.toNat ∨ 8 < n.toNat →
        ∃ t, exec .frameEncode s = .next t ∧ RaisedIn .frame 1 s t) ∧
      (p.toNat ≤ 7 → r.toNat ≤ 1 → dp.toNat ≤ 1 → n.toNat ≤ 8 →
        FirstUnwrittenLaneFaults .frameEncode .data n.toNat s ∧
        (LanesWritten .data n.toNat s →
          ∃ t, exec .frameEncode s = .next t ∧ SucceededIn .frame s t ∧
            t.out.frame.fid = some (BitVec.ofNat 29 (p.toNat * 2 ^ 26 + r.toNat * 2 ^ 25 +
              dp.toNat * 2 ^ 24 + pf.toNat * 2 ^ 16 + ps.toNat * 2 ^ 8 + sa.toNat)) ∧
            t.out.frame.flen = some (BitVec.ofNat 4 n.toNat) ∧
            ∀ k : Fin 8,
              t.out.frame.fdata[k] = if k.val < n.toNat then s.inp.data[k] else none))

/-- R67, the whole rule of PGN_PACK. -/
def Obligations.PgnPackFollowsItsRule : Prop :=
  ∀ s : State, FirstUnwrittenFaults .pgnPack [.prio, .pgn, .da, .sa, .len] s ∧
    ∀ p g da sa n, s.inp.prio = some p → s.inp.pgn = some g → s.inp.da = some da →
      s.inp.sa = some sa → s.inp.len = some n →
      (7 < p.toNat ∨ 0x3FFFF < g.toNat ∨ 8 < n.toNat ∨
          (240 ≤ g.toNat / 2 ^ 8 % 2 ^ 8 ∧ da ≠ 0xFF) ∨
          (g.toNat / 2 ^ 8 % 2 ^ 8 < 240 ∧ g.toNat % 2 ^ 8 ≠ 0) →
        ∃ t, exec .pgnPack s = .next t ∧ RaisedIn .frame 1 s t) ∧
      ∀ ps : BitVec 8, p.toNat ≤ 7 → g.toNat ≤ 0x3FFFF → n.toNat ≤ 8 →
        ((240 ≤ g.toNat / 2 ^ 8 % 2 ^ 8 ∧ da = 0xFF ∧ ps.toNat = g.toNat % 2 ^ 8) ∨
          (g.toNat / 2 ^ 8 % 2 ^ 8 < 240 ∧ g.toNat % 2 ^ 8 = 0 ∧ ps = da)) →
        FirstUnwrittenLaneFaults .pgnPack .data n.toNat s ∧
        (LanesWritten .data n.toNat s →
          ∃ t, exec .pgnPack s = .next t ∧ SucceededIn .frame s t ∧
            t.out.frame.fid = some (BitVec.ofNat 29 (p.toNat * 2 ^ 26 +
              g.toNat / 2 ^ 8 * 2 ^ 16 + ps.toNat * 2 ^ 8 + sa.toNat)) ∧
            t.out.frame.flen = some (BitVec.ofNat 4 n.toNat) ∧
            ∀ k : Fin 8,
              t.out.frame.fdata[k] = if k.val < n.toNat then s.inp.data[k] else none)

/-- R74, the whole rule of NAME_DECODE. -/
def Obligations.NameDecodeFollowsItsRule : Prop :=
  ∀ s : State, FirstUnwrittenFaults .nameDecode [.nameA] s ∧
    ∀ n, s.inp.nameA = some n →
      ∃ t, exec .nameDecode s = .next t ∧ SucceededIn .nfields s t ∧
        t.out.nfields.aac = some (n.extractLsb' 63 1) ∧
        t.out.nfields.ig = some (n.extractLsb' 60 3) ∧
        t.out.nfields.vsi = some (n.extractLsb' 56 4) ∧
        t.out.nfields.vs = some (n.extractLsb' 49 7) ∧
        t.out.nfields.nrsv = some (n.extractLsb' 48 1) ∧
        t.out.nfields.func = some (n.extractLsb' 40 8) ∧
        t.out.nfields.finst = some (n.extractLsb' 35 5) ∧
        t.out.nfields.ecui = some (n.extractLsb' 32 3) ∧
        t.out.nfields.mfg = some (n.extractLsb' 21 11) ∧
        t.out.nfields.idn = some (n.extractLsb' 0 21)

/-- R75, the whole rule of NAME_ENCODE. -/
def Obligations.NameEncodeFollowsItsRule : Prop :=
  ∀ s : State, FirstUnwrittenFaults .nameEncode
      [.aac, .ig, .vsi, .vs, .nrsv, .func, .finst, .ecui, .mfg, .idn] s ∧
    ∀ aac ig vsi vs rsv fn fi ecu mfg idn, s.inp.aac = some aac → s.inp.ig = some ig →
      s.inp.vsi = some vsi → s.inp.vs = some vs → s.inp.nrsv = some rsv → s.inp.func = some fn →
      s.inp.finst = some fi → s.inp.ecui = some ecu → s.inp.mfg = some mfg →
      s.inp.idn = some idn →
      (1 < aac.toNat ∨ 7 < ig.toNat ∨ 15 < vsi.toNat ∨ 127 < vs.toNat ∨ 1 < rsv.toNat ∨
          31 < fi.toNat ∨ 7 < ecu.toNat ∨ 2047 < mfg.toNat ∨ 0x1FFFFF < idn.toNat →
        ∃ t, exec .nameEncode s = .next t ∧ RaisedIn .name 2 s t) ∧
      (aac.toNat ≤ 1 → ig.toNat ≤ 7 → vsi.toNat ≤ 15 → vs.toNat ≤ 127 → rsv.toNat ≤ 1 →
        fi.toNat ≤ 31 → ecu.toNat ≤ 7 → mfg.toNat ≤ 2047 → idn.toNat ≤ 0x1FFFFF →
        ∃ t, exec .nameEncode s = .next t ∧ SucceededIn .name s t ∧
          t.out.name = some (BitVec.ofNat 64 (aac.toNat * 2 ^ 63 + ig.toNat * 2 ^ 60 +
            vsi.toNat * 2 ^ 56 + vs.toNat * 2 ^ 49 + rsv.toNat * 2 ^ 48 + fn.toNat * 2 ^ 40 +
            fi.toNat * 2 ^ 35 + ecu.toNat * 2 ^ 32 + mfg.toNat * 2 ^ 21 + idn.toNat)))

/-- R76, the whole rule of NAME_COMPARE. -/
def Obligations.NameCompareFollowsItsRule : Prop :=
  ∀ s : State, FirstUnwrittenFaults .nameCompare [.nameA, .nameB] s ∧
    ∀ a b, s.inp.nameA = some a → s.inp.nameB = some b →
      ∃ t, exec .nameCompare s = .next t ∧ SucceededIn .cmp s t ∧
        (a.toNat = b.toNat → t.out.cmp = some 0b00) ∧
        (a.toNat < b.toNat → t.out.cmp = some 0b01) ∧
        (b.toNat < a.toNat → t.out.cmp = some 0b10)

/-- R77, the whole rule of NAME_TO_BYTES. -/
def Obligations.NameToBytesFollowsItsRule : Prop :=
  ∀ s : State, FirstUnwrittenFaults .nameToBytes [.nameA] s ∧
    ∀ n, s.inp.nameA = some n →
      ∃ t, exec .nameToBytes s = .next t ∧ SucceededIn .nbytes s t ∧
        ∀ k : Fin 8, t.out.nbytes[k] = some (n.extractLsb' (8 * k.val) 8)

/-- R78, the whole rule of NAME_FROM_BYTES: lane `k` is bits `[8k+7 : 8k]` of the NAME. -/
def Obligations.NameFromBytesFollowsItsRule : Prop :=
  ∀ s : State, FirstUnwrittenLaneFaults .nameFromBytes .nbytes 8 s ∧
    (LanesWritten .nbytes 8 s →
      ∃ t, exec .nameFromBytes s = .next t ∧ SucceededIn .name s t ∧
        ∃ v, t.out.name = some v ∧
          ∀ k : Fin 8, s.inp.nbytes[k] = some (v.extractLsb' (8 * k.val) 8))

/-- R83: exactly when `InvalidPdu` is raised. -/
def Obligations.InvalidPduCauses : Prop :=
  (∀ (s t : State) p r dp n, s.inp.prio = some p → s.inp.rbit = some r → s.inp.dp = some dp →
    s.inp.len = some n → exec .frameEncode s = .next t →
    (t.status.extractLsb' 0 3 = 1 ↔ 7 < p.toNat ∨ 1 < r.toNat ∨ 1 < dp.toNat ∨ 8 < n.toNat)) ∧
  (∀ (s t : State) p g da n, s.inp.prio = some p → s.inp.pgn = some g → s.inp.da = some da →
    s.inp.len = some n → exec .pgnPack s = .next t →
    (t.status.extractLsb' 0 3 = 1 ↔ 7 < p.toNat ∨ 0x3FFFF < g.toNat ∨ 8 < n.toNat ∨
      (240 ≤ g.toNat / 2 ^ 8 % 2 ^ 8 ∧ da ≠ 255) ∨
      (g.toNat / 2 ^ 8 % 2 ^ 8 < 240 ∧ g.toNat % 2 ^ 8 ≠ 0))) ∧
  ∀ (i : Instr) (s t : State), exec i s = .next t → t.status.extractLsb' 0 3 = 1 →
    i = .frameEncode ∨ i = .pgnPack

/-- R84: exactly when `InvalidName` is raised. -/
def Obligations.InvalidNameCause : Prop :=
  (∀ (s t : State) aac ig vsi vs rsv fi ecu mfg idn, s.inp.aac = some aac → s.inp.ig = some ig →
    s.inp.vsi = some vsi → s.inp.vs = some vs → s.inp.nrsv = some rsv →
    s.inp.finst = some fi → s.inp.ecui = some ecu → s.inp.mfg = some mfg → s.inp.idn = some idn →
    exec .nameEncode s = .next t →
    (t.status.extractLsb' 0 3 = 2 ↔ 2 ^ 1 ≤ aac.toNat ∨ 2 ^ 3 ≤ ig.toNat ∨ 2 ^ 4 ≤ vsi.toNat ∨
      2 ^ 7 ≤ vs.toNat ∨ 2 ^ 1 ≤ rsv.toNat ∨ 2 ^ 5 ≤ fi.toNat ∨ 2 ^ 3 ≤ ecu.toNat ∨
      2 ^ 11 ≤ mfg.toNat ∨ 2 ^ 21 ≤ idn.toNat)) ∧
  ∀ (i : Instr) (s t : State), exec i s = .next t → t.status.extractLsb' 0 3 = 2 → i = .nameEncode

/-- R85: exactly when `InvalidFrame` is raised. -/
def Obligations.InvalidFrameCause : Prop :=
  (∀ (s t : State) n, s.inp.flen = some n → exec .frameDecode s = .next t →
    (t.status.extractLsb' 0 3 = 3 ↔ 8 < n.toNat)) ∧
  ∀ (i : Instr) (s t : State), exec i s = .next t → t.status.extractLsb' 0 3 = 3 → i = .frameDecode

/-- R89: the code each host action can leave in `STATUS.ERR`; code 4 comes from an illegal command
word only, and the codes 5, 6 and 7 are never written. -/
def Obligations.ErrorCodesByCommand : Prop :=
  ∀ (s t : State) (w : BitVec 8), act (.wr .cmd w) s = .next t →
    match decode w with
    | .ok .frameDecode => t.status.extractLsb' 0 3 = 0 ∨ t.status.extractLsb' 0 3 = 3
    | .ok .frameEncode => t.status.extractLsb' 0 3 = 0 ∨ t.status.extractLsb' 0 3 = 1
    | .ok .pgnPack => t.status.extractLsb' 0 3 = 0 ∨ t.status.extractLsb' 0 3 = 1
    | .ok .nameEncode => t.status.extractLsb' 0 3 = 0 ∨ t.status.extractLsb' 0 3 = 2
    | .ok .nameDecode => t.status.extractLsb' 0 3 = 0
    | .ok .nameCompare => t.status.extractLsb' 0 3 = 0
    | .ok .nameToBytes => t.status.extractLsb' 0 3 = 0
    | .ok .nameFromBytes => t.status.extractLsb' 0 3 = 0
    | .error _ => t.status.extractLsb' 0 3 = 4

/-- R90, for a command: when its code is not 0, its whole result group is `⊥`, VALID is 1, and no IN
register and no other result group changed; and for an illegal word, which changes STATUS only. -/
def Obligations.ErrorCommitClearsTheGroup : Prop :=
  (∀ (i : Instr) (s t : State), exec i s = .next t → t.status.extractLsb' 0 3 ≠ 0 →
    RaisedIn (resultGroup i) (t.status.extractLsb' 0 3) s t) ∧
  ∀ (s t : State) (w : BitVec 8), (decode w).toOption = none → act (.wr .cmd w) s = .next t →
    Committed 4 s t ∧ t.inp = s.inp ∧ t.out = s.out

/-- The frame of every command (10_state.md R15, R17, R19): no IN register, no register outside its
result group (given here by name) and no reserved STATUS bit changes; VALID is 1. -/
def Obligations.CommandFrame : Prop :=
  ∀ (i : Instr) (s t : State), exec i s = .next t →
    (match i with
      | .frameDecode => OnlyGroup .pdu s t
      | .frameEncode => OnlyGroup .frame s t
      | .pgnPack => OnlyGroup .frame s t
      | .nameDecode => OnlyGroup .nfields s t
      | .nameEncode => OnlyGroup .name s t
      | .nameCompare => OnlyGroup .cmp s t
      | .nameToBytes => OnlyGroup .nbytes s t
      | .nameFromBytes => OnlyGroup .name s t) ∧
    t.status.extractLsb' 7 1 = 1 ∧ t.status.extractLsb' 3 4 = s.status.extractLsb' 3 4

/-- R68: FRAME_DECODE succeeds on every identifier and every length 0 to 8 whose lanes are written. -/
def Obligations.FrameDecodeIsTotal : Prop :=
  ∀ (s : State) (id : BitVec 29) (n : BitVec 4), s.inp.fid = some id → s.inp.flen = some n →
    n.toNat ≤ 8 → LanesWritten .fdata n.toNat s →
    ∃ t, exec .frameDecode s = .next t ∧ t.status.extractLsb' 0 3 = 0

/-- R69: PDU to frame to PDU. `u` is any state whose IN.FID, IN.FLEN and IN.FDATA below the length
hold what FRAME_ENCODE left in OUT. -/
def Obligations.EncodeThenDecodeReturnsThePdu : Prop :=
  ∀ (s t u : State) p r dp pf ps sa n, s.inp.prio = some p → s.inp.rbit = some r →
    s.inp.dp = some dp → s.inp.pf = some pf → s.inp.ps = some ps → s.inp.sa = some sa →
    s.inp.len = some n → exec .frameEncode s = .next t → t.status.extractLsb' 0 3 = 0 →
    u.inp.fid = t.out.frame.fid → u.inp.flen = t.out.frame.flen →
    (∀ k : Fin 8, k.val < n.toNat → u.inp.fdata[k] = t.out.frame.fdata[k]) →
    ∃ v, exec .frameDecode u = .next v ∧ v.status.extractLsb' 0 3 = 0 ∧
      v.out.pdu.prio.map BitVec.toNat = some p.toNat ∧
      v.out.pdu.rbit.map BitVec.toNat = some r.toNat ∧
      v.out.pdu.dp.map BitVec.toNat = some dp.toNat ∧
      v.out.pdu.pf = some pf ∧ v.out.pdu.ps = some ps ∧ v.out.pdu.sa = some sa ∧
      v.out.pdu.len.map BitVec.toNat = some n.toNat ∧
      ∀ k : Fin 8, k.val < n.toNat → v.out.pdu.data[k] = s.inp.data[k]

/-- R70: frame to PDU to frame. `u` is any state whose PDU operands hold, zero-extended, what
FRAME_DECODE left in OUT. -/
def Obligations.DecodeThenEncodeReturnsTheFrame : Prop :=
  ∀ (s t u : State) id n, s.inp.fid = some id → s.inp.flen = some n →
    exec .frameDecode s = .next t → t.status.extractLsb' 0 3 = 0 →
    u.inp.prio = t.out.pdu.prio.map (BitVec.setWidth 8) →
    u.inp.rbit = t.out.pdu.rbit.map (BitVec.setWidth 8) →
    u.inp.dp = t.out.pdu.dp.map (BitVec.setWidth 8) →
    u.inp.pf = t.out.pdu.pf → u.inp.ps = t.out.pdu.ps → u.inp.sa = t.out.pdu.sa →
    u.inp.len = t.out.pdu.len.map (BitVec.setWidth 8) →
    (∀ k : Fin 8, k.val < n.toNat → u.inp.data[k] = t.out.pdu.data[k]) →
    ∃ v, exec .frameEncode u = .next v ∧ v.status.extractLsb' 0 3 = 0 ∧
      v.out.frame.fid = some id ∧ v.out.frame.flen = some n ∧
      ∀ k : Fin 8, k.val < n.toNat → v.out.frame.fdata[k] = s.inp.fdata[k]

/-- R71: what PGN_PACK packs, FRAME_DECODE reads back as the same PGN, priority, source and
destination or group extension. -/
def Obligations.PgnPackAgreesWithDecode : Prop :=
  ∀ (s t u : State) p g da sa n, s.inp.prio = some p → s.inp.pgn = some g → s.inp.da = some da →
    s.inp.sa = some sa → s.inp.len = some n → exec .pgnPack s = .next t →
    t.status.extractLsb' 0 3 = 0 →
    u.inp.fid = t.out.frame.fid → u.inp.flen = t.out.frame.flen →
    (∀ k : Fin 8, k.val < n.toNat → u.inp.fdata[k] = t.out.frame.fdata[k]) →
    ∃ v, exec .frameDecode u = .next v ∧ v.status.extractLsb' 0 3 = 0 ∧
      v.out.pdu.pgn.map BitVec.toNat = some g.toNat ∧
      v.out.pdu.prio.map BitVec.toNat = some p.toNat ∧ v.out.pdu.sa = some sa ∧
      ((g.toNat / 2 ^ 8 % 2 ^ 8 < 240 ∧ v.out.pdu.pdu2 = some 0 ∧ v.out.pdu.da = some da) ∨
        (240 ≤ g.toNat / 2 ^ 8 % 2 ^ 8 ∧ v.out.pdu.pdu2 = some 1 ∧
          v.out.pdu.ge.map BitVec.toNat = some (g.toNat % 2 ^ 8)))

/-- R79: the fields of a NAME survive NAME_ENCODE then NAME_DECODE, and every 64-bit NAME survives
NAME_DECODE then NAME_ENCODE. -/
def Obligations.NameFieldRoundTrip : Prop :=
  (∀ (s t u : State) aac ig vsi vs rsv fn fi ecu mfg idn, s.inp.aac = some aac →
    s.inp.ig = some ig → s.inp.vsi = some vsi → s.inp.vs = some vs → s.inp.nrsv = some rsv →
    s.inp.func = some fn → s.inp.finst = some fi → s.inp.ecui = some ecu →
    s.inp.mfg = some mfg → s.inp.idn = some idn →
    exec .nameEncode s = .next t → t.status.extractLsb' 0 3 = 0 → u.inp.nameA = t.out.name →
    ∃ v, exec .nameDecode u = .next v ∧
      v.out.nfields.aac.map BitVec.toNat = some aac.toNat ∧
      v.out.nfields.ig.map BitVec.toNat = some ig.toNat ∧
      v.out.nfields.vsi.map BitVec.toNat = some vsi.toNat ∧
      v.out.nfields.vs.map BitVec.toNat = some vs.toNat ∧
      v.out.nfields.nrsv.map BitVec.toNat = some rsv.toNat ∧
      v.out.nfields.func.map BitVec.toNat = some fn.toNat ∧
      v.out.nfields.finst.map BitVec.toNat = some fi.toNat ∧
      v.out.nfields.ecui.map BitVec.toNat = some ecu.toNat ∧
      v.out.nfields.mfg.map BitVec.toNat = some mfg.toNat ∧
      v.out.nfields.idn.map BitVec.toNat = some idn.toNat) ∧
  ∀ (s u : State) (n : BitVec 64), s.inp.nameA = some n →
    ∃ t, exec .nameDecode s = .next t ∧
      (u.inp.aac = t.out.nfields.aac.map (BitVec.setWidth 8) →
        u.inp.ig = t.out.nfields.ig.map (BitVec.setWidth 8) →
        u.inp.vsi = t.out.nfields.vsi.map (BitVec.setWidth 8) →
        u.inp.vs = t.out.nfields.vs.map (BitVec.setWidth 8) →
        u.inp.nrsv = t.out.nfields.nrsv.map (BitVec.setWidth 8) →
        u.inp.func = t.out.nfields.func →
        u.inp.finst = t.out.nfields.finst.map (BitVec.setWidth 8) →
        u.inp.ecui = t.out.nfields.ecui.map (BitVec.setWidth 8) →
        u.inp.mfg = t.out.nfields.mfg.map (BitVec.setWidth 16) →
        u.inp.idn = t.out.nfields.idn.map (BitVec.setWidth 32) →
        ∃ v, exec .nameEncode u = .next v ∧ v.status.extractLsb' 0 3 = 0 ∧
          v.out.name = some n)

/-- R80: the byte round trip, both ways. -/
def Obligations.NameByteRoundTrip : Prop :=
  (∀ (s u : State) (n : BitVec 64), s.inp.nameA = some n →
    ∃ t, exec .nameToBytes s = .next t ∧ (u.inp.nbytes = t.out.nbytes →
      ∃ v, exec .nameFromBytes u = .next v ∧ v.out.name = some n)) ∧
  ∀ (s u : State), LanesWritten .nbytes 8 s →
    ∃ t, exec .nameFromBytes s = .next t ∧ (u.inp.nameA = t.out.name →
      ∃ v, exec .nameToBytes u = .next v ∧ v.out.nbytes = s.inp.nbytes)

/-- R81: NAME_COMPARE gives 0b01 exactly when A is numerically smaller, and 0b10 exactly when B
is. -/
def Obligations.ContentionReading : Prop :=
  ∀ (s : State) (a b : BitVec 64), s.inp.nameA = some a → s.inp.nameB = some b →
    ∃ t, exec .nameCompare s = .next t ∧
      (t.out.cmp = some 0b01 ↔ a.toNat < b.toNat) ∧ (t.out.cmp = some 0b10 ↔ b.toNat < a.toNat)

/-- R55: `split29` and `pack29` are inverse, and the fields stand at the bits the table gives. -/
def Obligations.IdentifierSplitAndPackAreInverse : Prop :=
  (∀ id : BitVec 29, pack29 (split29 id) = id) ∧ (∀ f : IdFields, split29 (pack29 f) = f) ∧
  ∀ id : BitVec 29, split29 id = ⟨id.extractLsb' 26 3, id.extractLsb' 25 1, id.extractLsb' 24 1,
    id.extractLsb' 16 8, id.extractLsb' 8 8, id.extractLsb' 0 8⟩

/-- R59: the PGN, as the source's formula and as a slice of the identifier. -/
def Obligations.PgnOfAnIdentifier : Prop :=
  ∀ id : BitVec 29,
    (240 ≤ (split29 id).pf.toNat →
      pgnOf (split29 id).rbit (split29 id).dp (split29 id).pf (split29 id).ps =
        id.extractLsb' 8 18 ∧
      (pgnOf (split29 id).rbit (split29 id).dp (split29 id).pf (split29 id).ps).toNat =
        ((split29 id).rbit.toNat <<< 17) ||| ((split29 id).dp.toNat <<< 16) |||
          ((split29 id).pf.toNat <<< 8) ||| (split29 id).ps.toNat) ∧
    ((split29 id).pf.toNat < 240 →
      pgnOf (split29 id).rbit (split29 id).dp (split29 id).pf (split29 id).ps =
        id.extractLsb' 16 10 ++ 0x00#8 ∧
      (pgnOf (split29 id).rbit (split29 id).dp (split29 id).pf (split29 id).ps).toNat =
        ((split29 id).rbit.toNat <<< 17) ||| ((split29 id).dp.toNat <<< 16) |||
          ((split29 id).pf.toNat <<< 8))

/-- R64: each PGN constant has PF below 240 and a zero low byte, so it is a PDU1 PGN. -/
def Obligations.PgnConstantsArePdu1 : Prop :=
  ∀ g ∈ [Config.pgnAddressClaimed, Config.pgnRequest, Config.pgnTpCm, Config.pgnTpDt],
    (g.extractLsb' 8 8).toNat < 240 ∧ isPdu2 (g.extractLsb' 8 8) = false ∧ g.extractLsb' 0 8 = 0

/-- R27: every register and lane `⊥`, STATUS 0, and CMD without content. -/
def Obligations.ResetState : Prop :=
  (∀ q : InReg, State.reset.inp.get q = none) ∧ (∀ q : OutReg, State.reset.out.get q = none) ∧
  State.reset.status.extractLsb' 0 3 = 0 ∧ State.reset.status.extractLsb' 3 4 = 0 ∧
  State.reset.status.extractLsb' 7 1 = 0 ∧ content State.reset .cmd = none

/-- The reset event (R105) as a host action, from every state. That the host's remaining actions and
what it observed stay is the model's choice (log 3). -/
def Obligations.ResetAction : Prop :=
  ∀ s : State, ∃ t, act .reset s = .next t ∧ (∀ q : InReg, t.inp.get q = none) ∧
    (∀ q : OutReg, t.out.get q = none) ∧ t.status = 0x00 ∧ t.pending = s.pending ∧
    t.observed = s.observed

/-- R32: the four cases of `WR r, v`. A write to IN changes that one register; a write to CMD runs the
word; a write to OUT or STATUS is refused. -/
def Obligations.HostWrite : Prop :=
  ∀ s : State,
    (∀ (q : InReg) (v : BitVec q.width),
      ∃ t, act (.wr (.inp q) v) s = .next t ∧ t.inp.get q = some v ∧
        (∀ p : InReg, p ≠ q → t.inp.get p = s.inp.get p) ∧
        t.out = s.out ∧ t.status = s.status ∧ t.pending = s.pending ∧ t.observed = s.observed) ∧
    (∀ (w : BitVec 8) (i : Instr), decode w = .ok i → act (.wr .cmd w) s = exec i s) ∧
    (∀ w : BitVec 8, (decode w).toOption = none →
      ∃ t, act (.wr .cmd w) s = .next t ∧ Committed 4 s t ∧ t.inp = s.inp ∧ t.out = s.out) ∧
    (∀ (q : OutReg) (v : BitVec q.width),
      act (.wr (.out q) v) s = .refused (.writeToReadOnly (.out q))) ∧
    ∀ v : BitVec 8, act (.wr .status v) s = .refused (.writeToReadOnly .status)

/-- `RD r` (R33): a read returns the content, faults on `⊥`, and changes no register; `RD STATUS`
always returns a value and `RD CMD` is refused. That the value is added to `observed` is the model's
way to return it (log 3). -/
def Obligations.HostRead : Prop :=
  ∀ s : State,
    act (.rd .cmd) s = .refused .readOfWriteOnly ∧
    act (.rd .status) s = .next { s with observed := s.observed ++ [⟨.status, s.status⟩] } ∧
    (∀ q : InReg, (s.inp.get q = none → act (.rd (.inp q)) s = .fault (.unwrittenRead (.inp q))) ∧
      ∀ v, s.inp.get q = some v →
        act (.rd (.inp q)) s = .next { s with observed := s.observed ++ [⟨.inp q, v⟩] }) ∧
    ∀ q : OutReg, (s.out.get q = none → act (.rd (.out q)) s = .fault (.unwrittenRead (.out q))) ∧
      ∀ v, s.out.get q = some v →
        act (.rd (.out q)) s = .next { s with observed := s.observed ++ [⟨.out q, v⟩] }

/-- R93: exactly the writes to OUT and STATUS and the read of CMD are refused, each under its name. -/
def Obligations.RefusedActions : Prop :=
  ∀ (s : State) (a : Action) (f : Refusal), act a s = .refused f ↔
    (∃ q v, a = .wr (.out q) v ∧ f = .writeToReadOnly (.out q)) ∨
    (∃ v, a = .wr .status v ∧ f = .writeToReadOnly .status) ∨
    (a = .rd .cmd ∧ f = .readOfWriteOnly)

/-- R110: an IN register keeps its value until the host rewrites it or reset clears it, and a result
group until the next command of that group or reset. -/
def Obligations.RegistersPersist : Prop :=
  ∀ (s t : State) (a : Action) (rest : List Action), s.pending = a :: rest → step s = .next t →
    a ≠ .reset →
    (∀ q : InReg, (∀ v, a ≠ .wr (.inp q) v) → t.inp.get q = s.inp.get q) ∧
    ∀ q : OutReg, (∀ w i, a = .wr .cmd w → decode w = .ok i → resultGroup i ≠ q.group) →
      t.out.get q = s.out.get q

/-- R82: the outcomes of a host action. A fault names a cell that holds `⊥`, and a refusal is one of
R93. -/
def Obligations.OutcomesOfAnAction : Prop :=
  ∀ (s : State) (a : Action) (rest : List Action), s.pending = a :: rest →
    (∃ t, step s = .next t) ∨
    (∃ q w, a = .wr .cmd w ∧ s.inp.get q = none ∧ step s = .fault (.unwrittenOperand q)) ∨
    (∃ r, a = .rd r ∧ r ≠ .cmd ∧ content s r = none ∧ step s = .fault (.unwrittenRead r)) ∨
    (∃ r v, a = .wr r v ∧ (r = .status ∨ ∃ q, r = .out q) ∧
      step s = .refused (.writeToReadOnly r)) ∨
    (a = .rd .cmd ∧ step s = .refused .readOfWriteOnly)

/-- A value written to an IN register is what the very next read of it returns (R39). -/
def Obligations.WriteThenReadReturnsTheValue : Prop :=
  ∀ (s : State) (q : InReg) (v : BitVec q.width) (rest : List Action),
    s.pending = .wr (.inp q) v :: .rd (.inp q) :: rest →
    ∃ t, Sys2Proof.core.run 2 s = .next t ∧ t.pending = rest ∧
      t.observed = s.observed ++ [⟨.inp q, v⟩]

/-- R39: the state after a sequence of actions is the state after its first part, transformed by the
rest alone. -/
def Obligations.ActionsTakeEffectInOrder : Prop :=
  ∀ (as bs : List Action) (s t : State),
    runActions (as ++ bs) s = .next t ↔
      ∃ u, runActions as s = .next u ∧ runActions bs u = .next t

/-- The order in which the host writes two different IN registers does not matter (R107). -/
def Obligations.WritesToDifferentRegistersCommute : Prop :=
  ∀ (s : State) (p q : InReg) (v : BitVec p.width) (w : BitVec q.width), p ≠ q →
    runActions [.wr (.inp p) v, .wr (.inp q) w] s = runActions [.wr (.inp q) w, .wr (.inp p) v] s

/-- A run that has reached a fault or a refusal does not end well, whatever follows (R112). -/
def Obligations.EndingWellIsPrefixClosed : Prop :=
  ∀ as bs : List Action, EndsWell (as ++ bs) → EndsWell as

/-- Every command is a function of IN alone (R36): two states with the same IN give the same result
group, code and VALID, or the same fault. -/
def Obligations.CommandDependsOnInOnly : Prop :=
  ∀ (i : Instr) (s u : State), s.inp = u.inp →
    (∀ t, exec i s = .next t → ∃ v, exec i u = .next v ∧
      (∀ q : OutReg, q.group = resultGroup i → v.out.get q = t.out.get q) ∧
      v.status.extractLsb' 0 3 = t.status.extractLsb' 0 3 ∧
      v.status.extractLsb' 7 1 = t.status.extractLsb' 7 1) ∧
    ∀ f, exec i s = .fault f → exec i u = .fault f

/-- Two identical commands with no write between leave the same state as one (R36). -/
def Obligations.CommandIsIdempotent : Prop :=
  ∀ (i : Instr) (s t : State), exec i s = .next t → exec i t = .next t

/-- R45: lanes of IN.FDATA at or above IN.FLEN, and of IN.DATA at or above IN.LEN, are not read by any
command and affect no result. -/
def Obligations.LanesAboveTheLengthAreNotRead : Prop :=
  ∀ (i : Instr) (s : State) (fd d : Lanes),
    (∀ n, s.inp.flen = some n → ∀ k : Fin 8, k.val < n.toNat → fd[k] = s.inp.fdata[k]) →
    (∀ n, s.inp.len = some n → ∀ k : Fin 8, k.val < n.toNat → d[k] = s.inp.data[k]) →
    (∀ t, exec i s = .next t →
      exec i { s with inp := { s.inp with fdata := fd, data := d } } =
        .next { t with inp := { s.inp with fdata := fd, data := d } }) ∧
    ∀ f, exec i s = .fault f →
      exec i { s with inp := { s.inp with fdata := fd, data := d } } = .fault f

/-- No value of the source address makes FRAME_ENCODE or PGN_PACK raise (R72). -/
def Obligations.SourceAddressIsNotJudged : Prop :=
  ∀ (i : Instr) (s t : State) (x : BitVec 8), i = .frameEncode ∨ i = .pgnPack →
    exec i s = .next t →
    ∃ v, exec i { s with inp := { s.inp with sa := some x } } = .next v ∧
      v.status.extractLsb' 0 3 = t.status.extractLsb' 0 3

/-- Every step keeps the invariant of `State.Inv`, from every state that satisfies it. -/
def Obligations.StepKeepsStateInv : Prop :=
  ∀ s t : State, s.Inv → step s = .next t → t.Inv

/-- The reset state satisfies `State.Inv`. -/
def Obligations.ResetStateSatisfiesInv : Prop := State.reset.Inv

/-- Instances share nothing (R100): a step of one depends on its own state alone and leaves every other
instance. That a system is a list of states, that an index names the stepping instance, and that an
index beyond the list changes nothing, is the model's choice (log 12). -/
def Obligations.InstancesShareNothing : Prop :=
  ∀ (k : Nat) (sys sys' : List State), stepInstance k sys = .next sys' →
    sys'.length = sys.length ∧ (∀ j, j ≠ k → sys'[j]? = sys[j]?) ∧
    ∀ s, sys[k]? = some s → ∃ t, step s = .next t ∧ sys'[k]? = some t

/-- R54: what the two pseudo-actions expand to. -/
def Obligations.PseudoActionsExpand : Prop :=
  (∀ i w, decode w = .ok i → (HostLine.cmd i).expand = [.wr .cmd w]) ∧
  ∀ (l : LaneReg) (bytes : List Nat), (HostLine.wrl l bytes).wf = true →
    (HostLine.wrl l bytes).expand.length = bytes.length ∧
    ∀ (k : Fin 8) (h : k.val < bytes.length),
      (HostLine.wrl l bytes).expand[k.val]? =
        some (.wr (.inp (.lane l k)) (BitVec.ofNat 8 bytes[k.val]))

/-- A step performs the first of the host's pending actions, on the state in which it is no longer
pending, and with none pending it changes nothing: the JCB never acts on its own (R28). The list of
pending actions is the model's choice (log 2), and so is the idle step (log 4). -/
def Obligations.StepPerformsTheNextAction : Prop :=
  (∀ (s : State) (a : Action) (rest : List Action), s.pending = a :: rest →
    step s = act a { s with pending := rest }) ∧
  ∀ s : State, s.pending = [] → step s = .next s

/-- R107, R92: nothing but a `⊥` operand stops a command. From every state, a command whose operands
are written answers a next state, and one with a `⊥` among the operands it reads first answers the
model fault that names one. From reset, writes of any values to any IN registers are performed, in any
order, they write exactly the registers they name, and then every command whose operands they wrote
runs. -/
def Obligations.CommandsRunOnceTheirOperandsAreWritten : Prop :=
  (∀ (i : Instr) (s : State), OperandsWritten i s → ∃ t, exec i s = .next t) ∧
  (∀ (i : Instr) (s : State), (∃ q ∈ scalarOperands i, s.inp.get q = none) →
    ∃ q ∈ scalarOperands i, s.inp.get q = none ∧ exec i s = .fault (.unwrittenOperand q)) ∧
  ∀ ws : List Action, (∀ a ∈ ws, ∃ q v, a = .wr (.inp q) v) →
    ∃ s, runActions ws State.reset = .next s ∧
      (∀ q : InReg, (s.inp.get q).isSome ↔ ∃ v, Action.wr (.inp q) v ∈ ws) ∧
      ∀ i : Instr, OperandsWritten i s → EndsWell (ws ++ [.wr .cmd (encode i)])
end

