-- ==== Sys2Proof/Laws/Operands.lean ====
section
/-! SUPPORT. What reading operands can answer (60_exceptions.md R92, 20_memory.md R45). -/

namespace Sys2Proof.Machine

theorem operand_some {r : InReg} {s : State} {v : BitVec r.width} {k : BitVec r.width → Result}
    (h : s.inp.get r = some v) : operand r s k = k v := by
  simp [operand, h]

theorem operand_none {r : InReg} {s : State} {k : BitVec r.width → Result}
    (h : s.inp.get r = none) : operand r s k = .fault (.unwrittenOperand r) := by
  simp [operand, h]

/-- An operand read that answers a next state had a value to read. -/
theorem operand_next {r : InReg} {s t : State} {k : BitVec r.width → Result}
    (h : operand r s k = .next t) : ∃ v, s.inp.get r = some v ∧ k v = .next t := by
  unfold operand at h
  split at h
  · exact ⟨_, ‹_›, h⟩
  · cases h

@[simp] theorem tabulate_getElem (f : Fin 8 → RegCell 8) (i : Fin 8) : (tabulate f)[i] = f i := by
  fin_cases i <;> rfl

@[simp] theorem keepBelow_getElem (l : Lanes) (n : Nat) (i : Fin 8) :
    (keepBelow l n)[i] = if i.val < n then l[i] else none := by
  simp only [keepBelow, tabulate_getElem]

theorem mem_laneOrder (i : Fin 8) : i ∈ laneOrder := by
  revert i; decide

/-- No lane below `n` is missing exactly when each holds a byte. -/
theorem firstUnwritten_eq_none (l : Lanes) (n : Nat) :
    firstUnwritten l n = none ↔ ∀ i : Fin 8, i.val < n → (l[i]).isSome := by
  simp only [firstUnwritten, List.find?_eq_none]
  constructor
  · intro h i hi
    have := h i (mem_laneOrder i)
    cases hl : l[i] <;> simp_all
  · intro h i _
    by_cases hi : i.val < n
    · have := h i hi
      cases hl : l[i] <;> simp_all
    · simp [hi]

/-- The missing lane that is found lies below `n` and holds `⊥`. -/
theorem firstUnwritten_eq_some {l : Lanes} {n : Nat} {i : Fin 8} (h : firstUnwritten l n = some i) :
    i.val < n ∧ l[i] = none := by
  have := List.find?_some h
  cases hl : l[i] <;> simp_all

theorem laneOperands_ok {l : LaneReg} {n : Nat} {s : State} {k : Lanes → Result}
    (h : ∀ i : Fin 8, i.val < n → ((s.inp.lanes l)[i]).isSome) :
    laneOperands l n s k = k (keepBelow (s.inp.lanes l) n) := by
  simp [laneOperands, (firstUnwritten_eq_none _ _).2 h]

/-- A lane read that answers a next state had every lane below the length. -/
theorem laneOperands_next {l : LaneReg} {n : Nat} {s t : State} {k : Lanes → Result}
    (h : laneOperands l n s k = .next t) :
    (∀ i : Fin 8, i.val < n → ((s.inp.lanes l)[i]).isSome) ∧
      k (keepBelow (s.inp.lanes l) n) = .next t := by
  unfold laneOperands at h
  split at h
  · cases h
  · exact ⟨(firstUnwritten_eq_none _ _).1 ‹_›, h⟩

/-- Two lane registers with the same lanes are equal. -/
theorem lanes_ext {a b : Lanes} (h : ∀ k : Fin 8, a[k] = b[k]) : a = b :=
  Vector.ext fun i hi => h ⟨i, hi⟩

/-- The lanes kept below a length that are all written. -/
theorem keepBelow_isSome {l : Lanes} {n : Nat} (h : ∀ i : Fin 8, i.val < n → (l[i]).isSome)
    (i : Fin 8) : ((keepBelow l n)[i]).isSome = decide (i.val < n) := by
  rw [keepBelow_getElem]
  by_cases hi : i.val < n
  · simpa [hi] using h i hi
  · simp [hi]

end Sys2Proof.Machine
end

