-- ==== Sys2Proof/Laws/Registers.lean ====
section
/-! SUPPORT. The laws of the register files: read after write, and what clearing a group does. -/

namespace Sys2Proof.Machine

@[simp] theorem InFile.get_set_same (f : InFile) (q : InReg) (v : BitVec q.width) :
    (f.set q v).get q = some v := by
  cases q with
  | lane l i => cases l <;> simp [InFile.set, InFile.get, InFile.lanes]
  | _ => rfl

theorem InFile.get_set_other (f : InFile) (q p : InReg) (v : BitVec q.width) (h : p ≠ q) :
    (f.set q v).get p = f.get p := by
  cases q with
  | lane l i =>
    cases p with
    | lane m j =>
      cases l <;> cases m <;> simp [InFile.set, InFile.get, InFile.lanes] <;>
        simp only [ne_eq, InReg.lane.injEq, true_and] at h <;>
        exact Vector.getElem_set_ne _ _ (by simpa [Fin.ext_iff, eq_comm] using h)
    | _ => cases l <;> rfl
  | _ =>
    cases p with
    | lane m j => cases m <;> rfl
    | _ => first | rfl | exact absurd rfl h

@[simp] theorem emptyLanes_getElem (i : Fin 8) : emptyLanes[i] = none := by
  revert i; decide

@[simp] theorem InFile.get_empty (q : InReg) : InFile.empty.get q = none := by
  cases q with
  | lane l i => cases l <;> exact emptyLanes_getElem i
  | _ => rfl

@[simp] theorem OutFile.get_empty (q : OutReg) : OutFile.empty.get q = none := by
  cases q with
  | lane l i => cases l <;> exact emptyLanes_getElem i
  | _ => rfl

/-- Clearing a group makes each of its registers `⊥` (60_exceptions.md R90). -/
theorem OutFile.get_clear_same (f : OutFile) (g : Group) (q : OutReg) (h : q.group = g) :
    (f.clear g).get q = none := by
  subst h
  cases q with
  | lane l i => cases l <;> exact emptyLanes_getElem i
  | _ => rfl

/-- Clearing a group leaves the registers of the other groups (60_exceptions.md R90). -/
theorem OutFile.get_clear_other (f : OutFile) (g : Group) (q : OutReg) (h : q.group ≠ g) :
    (f.clear g).get q = f.get q := by
  cases q with
  | lane l i => cases l <;> cases g <;> first | rfl | exact absurd rfl h
  | _ => cases g <;> first | rfl | exact absurd rfl h

/-- Two OUT files agree outside a group when every register of another group reads the same. -/
def OutFile.AgreeOutside (g : Group) (f h : OutFile) : Prop :=
  ∀ q : OutReg, q.group ≠ g → f.get q = h.get q

end Sys2Proof.Machine
end

