-- ==== Sys2Proof/Laws/Formats.lean ====
section
/-! SUPPORT. The formats as arithmetic on numbers: what each concatenation and each slice is worth. -/

namespace Sys2Proof.Machine

/-- A concatenation as a number. -/
theorem toNat_append_eq {m n : Nat} (a : BitVec m) (b : BitVec n) :
    (a ++ b).toNat = a.toNat * 2 ^ n + b.toNat := by
  rw [BitVec.toNat_append, Nat.shiftLeft_eq, Nat.mul_comm, ← Nat.two_pow_add_eq_or_of_lt b.isLt]

/-- A slice as a number. -/
theorem toNat_slice {w : Nat} (v : BitVec w) (at_ len : Nat) :
    (v.extractLsb' at_ len).toNat = v.toNat / 2 ^ at_ % 2 ^ len := by
  rw [BitVec.extractLsb'_toNat, Nat.shiftRight_eq_div_pow]

/-- The low bits as a number. -/
theorem toNat_slice_zero {w : Nat} (v : BitVec w) (len : Nat) :
    (v.extractLsb' 0 len).toNat = v.toNat % 2 ^ len := by
  rw [toNat_slice, Nat.pow_zero, Nat.div_one]

/-- Putting a slice back above the bits below it. -/
theorem slice_add_low (n at_ len : Nat) :
    n / 2 ^ at_ % 2 ^ len * 2 ^ at_ + n % 2 ^ at_ = n % 2 ^ (at_ + len) := by
  rw [Nat.pow_add, Nat.mod_mul, Nat.mul_comm, Nat.add_comm]

/-- Widening a value and keeping its own bits gives it back. -/
theorem slice_setWidth {w m : Nat} (v : BitVec w) (h : w ≤ m) :
    (v.setWidth m).extractLsb' 0 w = v := by
  apply BitVec.eq_of_toNat_eq
  rw [toNat_slice_zero, BitVec.toNat_setWidth,
    Nat.mod_eq_of_lt (Nat.lt_of_lt_of_le v.isLt (Nat.pow_le_pow_right (by decide) h)),
    Nat.mod_eq_of_lt v.isLt]

theorem pack29_toNat (f : IdFields) :
    (pack29 f).toNat = f.p.toNat * 2 ^ 26 + f.rbit.toNat * 2 ^ 25 + f.dp.toNat * 2 ^ 24 +
      f.pf.toNat * 2 ^ 16 + f.ps.toNat * 2 ^ 8 + f.sa.toNat := by
  change (f.p ++ f.rbit ++ f.dp ++ f.pf ++ f.ps ++ f.sa : BitVec (3 + 1 + 1 + 8 + 8 + 8)).toNat = _
  simp only [toNat_append_eq]
  omega

theorem pgnOf_toNat (rbit dp : BitVec 1) (pf ps : BitVec 8) :
    (pgnOf rbit dp pf ps).toNat = rbit.toNat * 2 ^ 17 + dp.toNat * 2 ^ 16 + pf.toNat * 2 ^ 8 +
      (if 240 ≤ pf.toNat then ps.toNat else 0) := by
  unfold pgnOf isPdu2
  by_cases h : 240 ≤ pf.toNat
  · simp only [h, decide_true, if_true]
    change (rbit ++ dp ++ pf ++ ps : BitVec (1 + 1 + 8 + 8)).toNat = _
    simp only [toNat_append_eq]
    omega
  · simp only [h, decide_false, if_false, Bool.false_eq_true]
    change (rbit ++ dp ++ pf ++ 0x00#8 : BitVec (1 + 1 + 8 + 8)).toNat = _
    simp only [toNat_append_eq, BitVec.toNat_ofNat]
    omega

theorem namePack_toNat (f : NameFields) :
    (namePack f).toNat = f.aac.toNat * 2 ^ 63 + f.ig.toNat * 2 ^ 60 + f.vsi.toNat * 2 ^ 56 +
      f.vs.toNat * 2 ^ 49 + f.rsv.toNat * 2 ^ 48 + f.fn.toNat * 2 ^ 40 + f.fi.toNat * 2 ^ 35 +
      f.ecu.toNat * 2 ^ 32 + f.mfg.toNat * 2 ^ 21 + f.idn.toNat := by
  change (f.aac ++ f.ig ++ f.vsi ++ f.vs ++ f.rsv ++ f.fn ++ f.fi ++ f.ecu ++ f.mfg ++ f.idn :
    BitVec (1 + 3 + 4 + 7 + 1 + 8 + 5 + 3 + 11 + 21)).toNat = _
  simp only [toNat_append_eq]
  omega

theorem nameFromBytes_toNat (b0 b1 b2 b3 b4 b5 b6 b7 : Byte) :
    (nameFromBytes b0 b1 b2 b3 b4 b5 b6 b7).toNat = b7.toNat * 2 ^ 56 + b6.toNat * 2 ^ 48 +
      b5.toNat * 2 ^ 40 + b4.toNat * 2 ^ 32 + b3.toNat * 2 ^ 24 + b2.toNat * 2 ^ 16 +
      b1.toNat * 2 ^ 8 + b0.toNat := by
  change (b7 ++ b6 ++ b5 ++ b4 ++ b3 ++ b2 ++ b1 ++ b0 :
    BitVec (8 + 8 + 8 + 8 + 8 + 8 + 8 + 8)).toNat = _
  simp only [toNat_append_eq]
  omega

theorem nameByte_toNat (n : BitVec 64) (i : Fin 8) :
    (nameByte n i).toNat = n.toNat / 2 ^ (8 * i.val) % 2 ^ 8 := toNat_slice _ _ _

/-- A NAME is rebuilt from its fields (30_encoding.md R60). -/
theorem namePack_nameUnpack (n : BitVec 64) : namePack (nameUnpack n) = n := by
  apply BitVec.eq_of_toNat_eq
  rw [namePack_toNat]
  simp only [nameUnpack, toNat_slice]
  simp only [Nat.pow_zero, Nat.div_one, Nat.add_assoc]
  rw [slice_add_low _ 21 11, slice_add_low _ 32 3, slice_add_low _ 35 5, slice_add_low _ 40 8,
    slice_add_low _ 48 1, slice_add_low _ 49 7, slice_add_low _ 56 4, slice_add_low _ 60 3,
    slice_add_low _ 63 1]
  exact Nat.mod_eq_of_lt n.isLt

theorem statusCommit_toNat (c : BitVec 3) (st : BitVec 8) :
    (statusCommit c st).toNat = 2 ^ 7 + (statusReserved st).toNat * 2 ^ 3 + c.toNat := by
  change (1#1 ++ statusReserved st ++ c : BitVec (1 + 4 + 3)).toNat = _
  simp only [toNat_append_eq, BitVec.toNat_ofNat]
  omega

end Sys2Proof.Machine
end

