-- ==== Sys2Proof/Laws/State.lean ====
section
/-! SUPPORT. One lemma per field for each update of State, and the fields of STATUS after a commit. -/

namespace Sys2Proof.Machine

@[simp] theorem raise_inp (e : ErrorCause) (i : Option Instr) (s : State) : (raise e i s).inp = s.inp := rfl
@[simp] theorem raise_out (e : ErrorCause) (i : Option Instr) (s : State) :
    (raise e i s).out = clearFor s.out i := rfl
@[simp] theorem raise_status (e : ErrorCause) (i : Option Instr) (s : State) :
    (raise e i s).status = statusCommit e.code s.status := rfl
@[simp] theorem raise_pending (e : ErrorCause) (i : Option Instr) (s : State) :
    (raise e i s).pending = s.pending := rfl
@[simp] theorem raise_observed (e : ErrorCause) (i : Option Instr) (s : State) :
    (raise e i s).observed = s.observed := rfl

@[simp] theorem succeed_inp (o : OutFile) (s : State) : (succeed o s).inp = s.inp := rfl
@[simp] theorem succeed_out (o : OutFile) (s : State) : (succeed o s).out = o := rfl
@[simp] theorem succeed_status (o : OutFile) (s : State) :
    (succeed o s).status = statusCommit 0 s.status := rfl
@[simp] theorem succeed_pending (o : OutFile) (s : State) : (succeed o s).pending = s.pending := rfl
@[simp] theorem succeed_observed (o : OutFile) (s : State) : (succeed o s).observed = s.observed := rfl

@[simp] theorem resetEvent_inp (s : State) : (resetEvent s).inp = .empty := rfl
@[simp] theorem resetEvent_out (s : State) : (resetEvent s).out = .empty := rfl
@[simp] theorem resetEvent_status (s : State) : (resetEvent s).status = 0 := rfl
@[simp] theorem resetEvent_pending (s : State) : (resetEvent s).pending = s.pending := rfl
@[simp] theorem resetEvent_observed (s : State) : (resetEvent s).observed = s.observed := rfl

@[simp] theorem withFetchWord_inp (s : State) (n w : Nat) : (s.withFetchWord n w).inp = s.inp := rfl
@[simp] theorem withFetchWord_out (s : State) (n w : Nat) : (s.withFetchWord n w).out = s.out := rfl
@[simp] theorem withFetchWord_status (s : State) (n w : Nat) :
    (s.withFetchWord n w).status = s.status := rfl
@[simp] theorem withFetchWord_pending (s : State) (n w : Nat) :
    (s.withFetchWord n w).pending = commandAction n w :: s.pending := rfl
@[simp] theorem withFetchWord_observed (s : State) (n w : Nat) :
    (s.withFetchWord n w).observed = s.observed := rfl

@[simp] theorem clearFor_some (f : OutFile) (i : Instr) :
    clearFor f (some i) = f.clear (resultGroup i) := rfl
@[simp] theorem clearFor_none (f : OutFile) : clearFor f none = f := rfl

@[simp] theorem statusErr_statusCommit (c : BitVec 3) (st : BitVec 8) :
    statusErr (statusCommit c st) = c := by
  apply BitVec.eq_of_toNat_eq
  rw [statusErr, toNat_slice, statusCommit_toNat]
  omega

@[simp] theorem statusReserved_statusCommit (c : BitVec 3) (st : BitVec 8) :
    statusReserved (statusCommit c st) = statusReserved st := by
  apply BitVec.eq_of_toNat_eq
  have h := (statusReserved st).isLt
  rw [statusReserved, toNat_slice, statusCommit_toNat]
  omega

@[simp] theorem statusValid_statusCommit (c : BitVec 3) (st : BitVec 8) :
    statusValid (statusCommit c st) = 1 := by
  apply BitVec.eq_of_toNat_eq
  have h := (statusReserved st).isLt
  rw [statusValid, toNat_slice, statusCommit_toNat]
  change _ = 1
  omega

/-- A second commit decides ERR: the first leaves no trace. -/
@[simp] theorem statusCommit_statusCommit (c d : BitVec 3) (st : BitVec 8) :
    statusCommit d (statusCommit c st) = statusCommit d st := by
  apply BitVec.eq_of_toNat_eq
  simp only [statusCommit_toNat, statusReserved_statusCommit]

/-- The step on a pending action (20_memory.md R39). -/
theorem step_cons (s : State) (a : Action) (rest : List Action) (h : s.pending = a :: rest) :
    step s = act a { s with pending := rest } := by
  simp [step, actNext, h]

/-- The step with nothing pending (20_memory.md R28). -/
theorem step_nil (s : State) (h : s.pending = []) : step s = .next s := by
  simp [step, actNext, h]

end Sys2Proof.Machine
end

