-- ==== Sys2Proof/Laws/Exec.lean ====
section
/-! SUPPORT. Everything a command can do, said once for each command: if it answers a next state, it
committed a success or an error (60_exceptions.md R90, R91). -/

namespace Sys2Proof.Machine

/-- `PS` for a PGN, as numbers (40_frame_codec.md R67): where `InvalidPdu` is raised. -/
theorem pgnPackPs_eq_none (g : BitVec 32) (da : BitVec 8) :
    pgnPackPs g da = none ↔ (240 ≤ g.toNat / 2 ^ 8 % 2 ^ 8 ∧ da ≠ 0xFF) ∨
      (g.toNat / 2 ^ 8 % 2 ^ 8 < 240 ∧ g.toNat % 2 ^ 8 ≠ 0) := by
  have hz : g.extractLsb' 0 8 = 0x00 ↔ (g.extractLsb' 0 8).toNat = 0 := by
    rw [← BitVec.toNat_inj]; rfl
  unfold pgnPackPs isPdu2
  rw [← toNat_slice g 8 8, ← toNat_slice_zero g 8]
  generalize g.extractLsb' 8 8 = pf at *
  generalize g.extractLsb' 0 8 = lo at *
  by_cases h : 240 ≤ pf.toNat
  · rw [if_pos (by simpa using h)]
    by_cases h2 : da = 255 <;> simp [h2, h]
  · rw [if_neg (by simpa using h)]
    by_cases h2 : lo = 0 <;> simp_all

/-- `PS` for a PGN, as numbers (40_frame_codec.md R67): which byte it is. -/
theorem pgnPackPs_eq_some (g : BitVec 32) (da ps : BitVec 8) :
    pgnPackPs g da = some ps ↔
      (240 ≤ g.toNat / 2 ^ 8 % 2 ^ 8 ∧ da = 0xFF ∧ ps.toNat = g.toNat % 2 ^ 8) ∨
      (g.toNat / 2 ^ 8 % 2 ^ 8 < 240 ∧ g.toNat % 2 ^ 8 = 0 ∧ ps = da) := by
  have hz : g.extractLsb' 0 8 = 0x00 ↔ (g.extractLsb' 0 8).toNat = 0 := by
    rw [← BitVec.toNat_inj]; rfl
  unfold pgnPackPs isPdu2
  rw [← toNat_slice g 8 8, ← toNat_slice_zero g 8, BitVec.toNat_inj]
  generalize g.extractLsb' 8 8 = pf at *
  generalize g.extractLsb' 0 8 = lo at *
  by_cases h : 240 ≤ pf.toNat
  · rw [if_pos (by simpa using h)]
    by_cases h2 : da = 255 <;> simp [h2, h, eq_comm]
  · rw [if_neg (by simpa using h)]
    have h1 : pf.toNat < 240 := Nat.lt_of_not_le h
    rw [← hz]
    by_cases h2 : lo = 0
    · simp [h, h1, h2, eq_comm (a := da) (b := ps)]
    · simp_all

/-- FRAME_DECODE on written scalar operands. -/
theorem execFrameDecode_eq {s : State} {id : BitVec 29} {n : BitVec 4}
    (hid : s.inp.fid = some id) (hn : s.inp.flen = some n) :
    exec .frameDecode s =
      if 8 < n.toNat then .next (raise .invalidFrame (some .frameDecode) s)
      else laneOperands .fdata n.toNat s fun d =>
        .next (succeed { s.out with pdu := decodedPdu id n d } s) := by
  change operand _ _ _ = _
  rw [operand_some (show s.inp.get .fid = some id from hid),
    operand_some (show s.inp.get .flen = some n from hn)]

/-- FRAME_ENCODE on written scalar operands. -/
theorem execFrameEncode_eq {s : State} {p r dp pf ps sa n : BitVec 8}
    (hp : s.inp.prio = some p) (hr : s.inp.rbit = some r) (hdp : s.inp.dp = some dp)
    (hpf : s.inp.pf = some pf) (hps : s.inp.ps = some ps) (hsa : s.inp.sa = some sa)
    (hn : s.inp.len = some n) :
    exec .frameEncode s =
      if 7 < p.toNat ∨ 1 < r.toNat ∨ 1 < dp.toNat ∨ 8 < n.toNat then
        .next (raise .invalidPdu (some .frameEncode) s)
      else frameResult ⟨p.extractLsb' 0 3, r.extractLsb' 0 1, dp.extractLsb' 0 1, pf, ps, sa⟩ n s := by
  change operand _ _ _ = _
  rw [operand_some (show s.inp.get .prio = some p from hp),
    operand_some (show s.inp.get .rbit = some r from hr),
    operand_some (show s.inp.get .dp = some dp from hdp),
    operand_some (show s.inp.get .pf = some pf from hpf),
    operand_some (show s.inp.get .ps = some ps from hps),
    operand_some (show s.inp.get .sa = some sa from hsa),
    operand_some (show s.inp.get .len = some n from hn)]

/-- PGN_PACK on written scalar operands. -/
theorem execPgnPack_eq {s : State} {g : BitVec 32} {p da sa n : BitVec 8}
    (hp : s.inp.prio = some p) (hg : s.inp.pgn = some g) (hda : s.inp.da = some da)
    (hsa : s.inp.sa = some sa) (hn : s.inp.len = some n) :
    exec .pgnPack s =
      if 7 < p.toNat ∨ 0x3FFFF < g.toNat ∨ 8 < n.toNat then
        .next (raise .invalidPdu (some .pgnPack) s)
      else match pgnPackPs g da with
        | none => .next (raise .invalidPdu (some .pgnPack) s)
        | some ps => frameResult ⟨p.extractLsb' 0 3, g.extractLsb' 17 1, g.extractLsb' 16 1,
            g.extractLsb' 8 8, ps, sa⟩ n s := by
  change operand _ _ _ = _
  rw [operand_some (show s.inp.get .prio = some p from hp),
    operand_some (show s.inp.get .pgn = some g from hg),
    operand_some (show s.inp.get .da = some da from hda),
    operand_some (show s.inp.get .sa = some sa from hsa),
    operand_some (show s.inp.get .len = some n from hn)] <;> rfl

/-- NAME_FROM_BYTES on written lanes. -/
theorem execNameFromBytes_eq {s : State} {b : Fin 8 → Byte}
    (h : ∀ k, s.inp.get (.lane .nbytes k) = some (b k)) :
    exec .nameFromBytes s = .next (succeed { s.out with
      name := some (nameFromBytes (b 0) (b 1) (b 2) (b 3) (b 4) (b 5) (b 6) (b 7)) } s) := by
  change operand _ _ _ = _
  rw [operand_some (h 0), operand_some (h 1), operand_some (h 2), operand_some (h 3),
    operand_some (h 4), operand_some (h 5), operand_some (h 6), operand_some (h 7)]

/-- NAME_ENCODE on written operands. -/
theorem execNameEncode_eq {s : State} {aac ig vsi vs rsv fn fi ecu : BitVec 8} {mfg : BitVec 16}
    {idn : BitVec 32} (h1 : s.inp.aac = some aac) (h2 : s.inp.ig = some ig)
    (h3 : s.inp.vsi = some vsi) (h4 : s.inp.vs = some vs) (h5 : s.inp.nrsv = some rsv)
    (h6 : s.inp.func = some fn) (h7 : s.inp.finst = some fi) (h8 : s.inp.ecui = some ecu)
    (h9 : s.inp.mfg = some mfg) (h10 : s.inp.idn = some idn) :
    exec .nameEncode s =
      if 1 < aac.toNat ∨ 7 < ig.toNat ∨ 15 < vsi.toNat ∨ 127 < vs.toNat ∨ 1 < rsv.toNat ∨
          31 < fi.toNat ∨ 7 < ecu.toNat ∨ 2047 < mfg.toNat ∨ 0x1FFFFF < idn.toNat then
        .next (raise .invalidName (some .nameEncode) s)
      else .next (succeed { s.out with name := some (namePack ⟨aac.extractLsb' 0 1,
        ig.extractLsb' 0 3, vsi.extractLsb' 0 4, vs.extractLsb' 0 7, rsv.extractLsb' 0 1, fn,
        fi.extractLsb' 0 5, ecu.extractLsb' 0 3, mfg.extractLsb' 0 11, idn.extractLsb' 0 21⟩) } s) := by
  change operand _ _ _ = _
  rw [operand_some (show s.inp.get .aac = some aac from h1),
    operand_some (show s.inp.get .ig = some ig from h2),
    operand_some (show s.inp.get .vsi = some vsi from h3),
    operand_some (show s.inp.get .vs = some vs from h4),
    operand_some (show s.inp.get .nrsv = some rsv from h5),
    operand_some (show s.inp.get .func = some fn from h6),
    operand_some (show s.inp.get .finst = some fi from h7),
    operand_some (show s.inp.get .ecui = some ecu from h8),
    operand_some (show s.inp.get .mfg = some mfg from h9),
    operand_some (show s.inp.get .idn = some idn from h10)]

theorem frameResult_next {f : IdFields} {n : BitVec 8} {s t : State}
    (h : frameResult f n s = .next t) :
    (∀ i : Fin 8, i.val < n.toNat → ((s.inp.lanes .data)[i]).isSome) ∧
      t = succeed { s.out with frame :=
        { fid := some (pack29 f), flen := some (n.extractLsb' 0 4),
          fdata := keepBelow (s.inp.lanes .data) n.toNat } } s := by
  obtain ⟨hl, hk⟩ := laneOperands_next h
  exact ⟨hl, by cases hk; rfl⟩

theorem execFrameDecode_next {s t : State} (h : execFrameDecode s = .next t) :
    ∃ id n, s.inp.fid = some id ∧ s.inp.flen = some n ∧
      ((8 < n.toNat ∧ t = raise .invalidFrame (some .frameDecode) s) ∨
       (n.toNat ≤ 8 ∧ (∀ i : Fin 8, i.val < n.toNat → ((s.inp.lanes .fdata)[i]).isSome) ∧
        t = succeed { s.out with
          pdu := decodedPdu id n (keepBelow (s.inp.lanes .fdata) n.toNat) } s)) := by
  obtain ⟨id, hid, h⟩ := operand_next h
  obtain ⟨n, hn, h⟩ := operand_next h
  refine ⟨id, n, hid, hn, ?_⟩
  split at h
  · rename_i hlt
    exact .inl ⟨hlt, by cases h; rfl⟩
  · rename_i hlt
    obtain ⟨hl, hk⟩ := laneOperands_next h
    exact .inr ⟨Nat.le_of_not_lt hlt, hl, by cases hk; rfl⟩

theorem execFrameEncode_next {s t : State} (h : execFrameEncode s = .next t) :
    ∃ p r dp pf ps sa n, s.inp.prio = some p ∧ s.inp.rbit = some r ∧ s.inp.dp = some dp ∧
      s.inp.pf = some pf ∧ s.inp.ps = some ps ∧ s.inp.sa = some sa ∧ s.inp.len = some n ∧
      (((7 < p.toNat ∨ 1 < r.toNat ∨ 1 < dp.toNat ∨ 8 < n.toNat) ∧
          t = raise .invalidPdu (some .frameEncode) s) ∨
       (p.toNat ≤ 7 ∧ r.toNat ≤ 1 ∧ dp.toNat ≤ 1 ∧ n.toNat ≤ 8 ∧
        frameResult ⟨p.extractLsb' 0 3, r.extractLsb' 0 1, dp.extractLsb' 0 1, pf, ps, sa⟩ n s =
          .next t)) := by
  obtain ⟨p, hp, h⟩ := operand_next h
  obtain ⟨r, hr, h⟩ := operand_next h
  obtain ⟨dp, hdp, h⟩ := operand_next h
  obtain ⟨pf, hpf, h⟩ := operand_next h
  obtain ⟨ps, hps, h⟩ := operand_next h
  obtain ⟨sa, hsa, h⟩ := operand_next h
  obtain ⟨n, hn, h⟩ := operand_next h
  refine ⟨p, r, dp, pf, ps, sa, n, hp, hr, hdp, hpf, hps, hsa, hn, ?_⟩
  split at h
  · exact .inl ⟨‹_›, by cases h; rfl⟩
  · rename_i hlt
    simp only [not_or, Nat.not_lt] at hlt
    exact .inr ⟨hlt.1, hlt.2.1, hlt.2.2.1, hlt.2.2.2, h⟩

theorem execPgnPack_next {s t : State} (h : execPgnPack s = .next t) :
    ∃ p g da sa n, s.inp.prio = some p ∧ s.inp.pgn = some g ∧ s.inp.da = some da ∧
      s.inp.sa = some sa ∧ s.inp.len = some n ∧
      (((7 < p.toNat ∨ 0x3FFFF < g.toNat ∨ 8 < n.toNat ∨ pgnPackPs g da = none) ∧
          t = raise .invalidPdu (some .pgnPack) s) ∨
       (p.toNat ≤ 7 ∧ g.toNat ≤ 0x3FFFF ∧ n.toNat ≤ 8 ∧ ∃ ps, pgnPackPs g da = some ps ∧
        frameResult ⟨p.extractLsb' 0 3, g.extractLsb' 17 1, g.extractLsb' 16 1,
          g.extractLsb' 8 8, ps, sa⟩ n s = .next t)) := by
  obtain ⟨p, hp, h⟩ := operand_next h
  obtain ⟨g, hg, h⟩ := operand_next h
  obtain ⟨da, hda, h⟩ := operand_next h
  obtain ⟨sa, hsa, h⟩ := operand_next h
  obtain ⟨n, hn, h⟩ := operand_next h
  refine ⟨p, g, da, sa, n, hp, hg, hda, hsa, hn, ?_⟩
  split at h
  · rename_i hlt
    refine .inl ⟨?_, by cases h; rfl⟩
    rcases hlt with h1 | h1 | h1
    · exact .inl h1
    · exact .inr (.inl h1)
    · exact .inr (.inr (.inl h1))
  · rename_i hlt
    simp only [not_or, Nat.not_lt] at hlt
    split at h
    · rename_i hps
      exact .inl ⟨.inr (.inr (.inr hps)), by cases h; rfl⟩
    · rename_i ps hps
      exact .inr ⟨hlt.1, hlt.2.1, hlt.2.2, ps, hps, h⟩

theorem execNameDecode_next {s t : State} (h : execNameDecode s = .next t) :
    ∃ n, s.inp.nameA = some n ∧ t = succeed { s.out with nfields := decodedName n } s := by
  obtain ⟨n, hn, h⟩ := operand_next h
  exact ⟨n, hn, by cases h; rfl⟩

theorem execNameEncode_next {s t : State} (h : execNameEncode s = .next t) :
    t = raise .invalidName (some .nameEncode) s ∨
      ∃ v, t = succeed { s.out with name := some v } s := by
  obtain ⟨aac, -, h⟩ := operand_next h
  obtain ⟨ig, -, h⟩ := operand_next h
  obtain ⟨vsi, -, h⟩ := operand_next h
  obtain ⟨vs, -, h⟩ := operand_next h
  obtain ⟨rsv, -, h⟩ := operand_next h
  obtain ⟨fn, -, h⟩ := operand_next h
  obtain ⟨fi, -, h⟩ := operand_next h
  obtain ⟨ecu, -, h⟩ := operand_next h
  obtain ⟨mfg, -, h⟩ := operand_next h
  obtain ⟨idn, -, h⟩ := operand_next h
  split at h
  · exact .inl (by cases h; rfl)
  · exact .inr ⟨_, by cases h; rfl⟩

theorem execNameCompare_next {s t : State} (h : execNameCompare s = .next t) :
    ∃ a b, s.inp.nameA = some a ∧ s.inp.nameB = some b ∧
      t = succeed { s.out with cmp := some (nameOrder a b) } s := by
  obtain ⟨a, ha, h⟩ := operand_next h
  obtain ⟨b, hb, h⟩ := operand_next h
  exact ⟨a, b, ha, hb, by cases h; rfl⟩

theorem execNameToBytes_next {s t : State} (h : execNameToBytes s = .next t) :
    ∃ n, s.inp.nameA = some n ∧
      t = succeed { s.out with nbytes := tabulate fun i => some (nameByte n i) } s := by
  obtain ⟨n, hn, h⟩ := operand_next h
  exact ⟨n, hn, by cases h; rfl⟩

theorem execNameFromBytes_next {s t : State} (h : execNameFromBytes s = .next t) :
    ∃ v, t = succeed { s.out with name := some v } s := by
  obtain ⟨b0, -, h⟩ := operand_next h
  obtain ⟨b1, -, h⟩ := operand_next h
  obtain ⟨b2, -, h⟩ := operand_next h
  obtain ⟨b3, -, h⟩ := operand_next h
  obtain ⟨b4, -, h⟩ := operand_next h
  obtain ⟨b5, -, h⟩ := operand_next h
  obtain ⟨b6, -, h⟩ := operand_next h
  obtain ⟨b7, -, h⟩ := operand_next h
  exact ⟨_, by cases h; rfl⟩

/-- A change of one group's registers is no change outside the group. -/
theorem agreeOutside_of_eq {g : Group} {f h : OutFile}
    (hf : g ≠ .frame → f.frame = h.frame) (hp : g ≠ .pdu → f.pdu = h.pdu)
    (hn : g ≠ .name → f.name = h.name) (hnf : g ≠ .nfields → f.nfields = h.nfields)
    (hc : g ≠ .cmp → f.cmp = h.cmp) (hb : g ≠ .nbytes → f.nbytes = h.nbytes) :
    OutFile.AgreeOutside g f h := by
  intro q hq
  cases q with
  | lane l i =>
    cases l with
    | fdata => simp [OutFile.get, OutFile.lanes, hf (Ne.symm hq)]
    | data => simp [OutFile.get, OutFile.lanes, hp (Ne.symm hq)]
    | nbytes => simp [OutFile.get, OutFile.lanes, hb (Ne.symm hq)]
  | _ =>
    simp only [OutFile.get]
    first
      | rw [hf (Ne.symm hq)] | rw [hp (Ne.symm hq)] | rw [hn (Ne.symm hq)]
      | rw [hnf (Ne.symm hq)] | rw [hc (Ne.symm hq)]

/-- Everything a command can do when it answers a next state: the error commit of R90 with a code of
1 to 3, or the success commit of R91 with a new content of its own group only. -/
theorem exec_cases {i : Instr} {s t : State} (h : exec i s = .next t) :
    (∃ e, e ≠ .illegalCommand ∧ t = raise e (some i) s) ∨
      ∃ o, OutFile.AgreeOutside (resultGroup i) o s.out ∧ t = succeed o s := by
  cases i with
  | frameDecode =>
    obtain ⟨_, _, -, -, ⟨-, rfl⟩ | ⟨-, -, rfl⟩⟩ := execFrameDecode_next h
    · exact .inl ⟨_, by decide, rfl⟩
    · exact .inr ⟨_, by apply agreeOutside_of_eq <;> simp [resultGroup], rfl⟩
  | frameEncode =>
    obtain ⟨_, _, _, _, _, _, _, -, -, -, -, -, -, -, ⟨-, rfl⟩ | ⟨-, -, -, -, h⟩⟩ :=
      execFrameEncode_next h
    · exact .inl ⟨_, by decide, rfl⟩
    · obtain ⟨-, rfl⟩ := frameResult_next h
      exact .inr ⟨_, by apply agreeOutside_of_eq <;> simp [resultGroup], rfl⟩
  | pgnPack =>
    obtain ⟨_, _, _, _, _, -, -, -, -, -, ⟨-, rfl⟩ | ⟨-, -, -, _, -, h⟩⟩ := execPgnPack_next h
    · exact .inl ⟨_, by decide, rfl⟩
    · obtain ⟨-, rfl⟩ := frameResult_next h
      exact .inr ⟨_, by apply agreeOutside_of_eq <;> simp [resultGroup], rfl⟩
  | nameDecode =>
    obtain ⟨_, -, rfl⟩ := execNameDecode_next h
    exact .inr ⟨_, by apply agreeOutside_of_eq <;> simp [resultGroup], rfl⟩
  | nameEncode =>
    obtain rfl | ⟨_, rfl⟩ := execNameEncode_next h
    · exact .inl ⟨_, by decide, rfl⟩
    · exact .inr ⟨_, by apply agreeOutside_of_eq <;> simp [resultGroup], rfl⟩
  | nameCompare =>
    obtain ⟨_, _, -, -, rfl⟩ := execNameCompare_next h
    exact .inr ⟨_, by apply agreeOutside_of_eq <;> simp [resultGroup], rfl⟩
  | nameToBytes =>
    obtain ⟨_, -, rfl⟩ := execNameToBytes_next h
    exact .inr ⟨_, by apply agreeOutside_of_eq <;> simp [resultGroup], rfl⟩
  | nameFromBytes =>
    obtain ⟨_, rfl⟩ := execNameFromBytes_next h
    exact .inr ⟨_, by apply agreeOutside_of_eq <;> simp [resultGroup], rfl⟩

/-- The host side of State is no part of a command. -/
theorem exec_host_side {i : Instr} {s t : State} (h : exec i s = .next t) :
    t.inp = s.inp ∧ t.pending = s.pending ∧ t.observed = s.observed := by
  obtain ⟨_, -, rfl⟩ | ⟨_, -, rfl⟩ := exec_cases h <;> exact ⟨rfl, rfl, rfl⟩

end Sys2Proof.Machine
end

