-- ==== Sys2Proof/Laws/PerInstr.lean ====
section
/-! SUPPORT. Facts about each command as syntax, one lemma per constructor. -/

/-- The command word of `i` is its `OP` under `Z = 0000`, and `OP` is 1 to 8
(30_encoding.md R46, R48). -/
def Sys2Proof.Laws.CommandWord.Statement (i : Sys2Proof.Instr) : Prop :=
  Sys2Proof.wordZ (Sys2Proof.encode i) = 0 ∧
  Sys2Proof.wordOp (Sys2Proof.encode i) = Sys2Proof.opOf i ∧
  1 ≤ (Sys2Proof.opOf i).toNat ∧ (Sys2Proof.opOf i).toNat ≤ 8

theorem Sys2Proof.Laws.CommandWord.frameDecode :
    Sys2Proof.Laws.CommandWord.Statement .frameDecode := ⟨rfl, rfl, by decide, by decide⟩
theorem Sys2Proof.Laws.CommandWord.frameEncode :
    Sys2Proof.Laws.CommandWord.Statement .frameEncode := ⟨rfl, rfl, by decide, by decide⟩
theorem Sys2Proof.Laws.CommandWord.pgnPack :
    Sys2Proof.Laws.CommandWord.Statement .pgnPack := ⟨rfl, rfl, by decide, by decide⟩
theorem Sys2Proof.Laws.CommandWord.nameDecode :
    Sys2Proof.Laws.CommandWord.Statement .nameDecode := ⟨rfl, rfl, by decide, by decide⟩
theorem Sys2Proof.Laws.CommandWord.nameEncode :
    Sys2Proof.Laws.CommandWord.Statement .nameEncode := ⟨rfl, rfl, by decide, by decide⟩
theorem Sys2Proof.Laws.CommandWord.nameCompare :
    Sys2Proof.Laws.CommandWord.Statement .nameCompare := ⟨rfl, rfl, by decide, by decide⟩
theorem Sys2Proof.Laws.CommandWord.nameToBytes :
    Sys2Proof.Laws.CommandWord.Statement .nameToBytes := ⟨rfl, rfl, by decide, by decide⟩
theorem Sys2Proof.Laws.CommandWord.nameFromBytes :
    Sys2Proof.Laws.CommandWord.Statement .nameFromBytes := ⟨rfl, rfl, by decide, by decide⟩
end

