-- ==== Sys2Proof/Machine/HostText.lean ====
section
/-! DEFINITION. The written form of a host program line (30_encoding.md R53): one action a line, `;`
starts a comment, numbers are decimal or `0x` hexadecimal. -/

namespace Sys2Proof.Machine

/-- A word, unless it is empty; its letters are collected last first. -/
def endWord (acc : List Char) : List (List Char) := if acc.isEmpty then [] else [acc.reverse]

/-- The words of a line: blanks separate them, `,` and `=` are words of their own, and `;` ends the
line (R53). -/
def wordsOf : List Char → List Char → List (List Char)
  | [], acc => endWord acc
  | c :: cs, acc =>
    if c = ';' then endWord acc
    else if c = ' ' ∨ c = '\t' then endWord acc ++ wordsOf cs []
    else if c = ',' ∨ c = '=' then endWord acc ++ [c] :: wordsOf cs []
    else wordsOf cs (c :: acc)

/-- The value of a digit, below the base. -/
def digitOf (base : Nat) (c : Char) : Option Nat :=
  let d := if '0' ≤ c ∧ c ≤ '9' then c.toNat - '0'.toNat
    else if 'A' ≤ c ∧ c ≤ 'F' then c.toNat - 'A'.toNat + 10
    else if 'a' ≤ c ∧ c ≤ 'f' then c.toNat - 'a'.toNat + 10
    else base
  if d < base then some d else none

/-- The digits of a number after the value `n` read so far. -/
def digitsOf (base n : Nat) : List Char → Option Nat
  | [] => some n
  | c :: cs => (digitOf base c).bind fun d => digitsOf base (n * base + d) cs

/-- A number (R53). The prefix `0b`, which R53 does not list, is read because the spec's own program
P3 writes one (log 13). -/
def numberOf : List Char → Option Nat
  | [] => none
  | '0' :: 'x' :: c :: cs => digitsOf 16 0 (c :: cs)
  | '0' :: 'b' :: c :: cs => digitsOf 2 0 (c :: cs)
  | c :: cs => digitsOf 10 0 (c :: cs)

/-- The names of the lane registers (10_state.md R13). -/
def laneNames : List (String × LaneReg) :=
  [("FDATA", .fdata), ("DATA", .data), ("NBYTES", .nbytes)]

/-- The names of the IN registers that are no lane registers (10_state.md R14). -/
def inNames : List (String × InReg) :=
  [("FID", .fid), ("FLEN", .flen), ("PRIO", .prio), ("R", .rbit), ("DP", .dp), ("PF", .pf),
    ("PS", .ps), ("SA", .sa), ("LEN", .len), ("PGN", .pgn), ("DA", .da), ("AAC", .aac),
    ("IG", .ig), ("VSI", .vsi), ("VS", .vs), ("NRSV", .nrsv), ("FUNC", .func),
    ("FINST", .finst), ("ECUI", .ecui), ("MFG", .mfg), ("IDN", .idn), ("NAME_A", .nameA),
    ("NAME_B", .nameB)]

/-- The names of the OUT registers that are no lane registers (10_state.md R16). -/
def outNames : List (String × OutReg) :=
  [("FID", .fid), ("FLEN", .flen), ("PRIO", .prio), ("R", .rbit), ("DP", .dp), ("PF", .pf),
    ("PS", .ps), ("SA", .sa), ("PDU2", .pdu2), ("DA", .da), ("GE", .ge), ("PGN", .pgn),
    ("LEN", .len), ("NAME", .name), ("AAC", .aac), ("IG", .ig), ("VSI", .vsi), ("VS", .vs),
    ("NRSV", .nrsv), ("FUNC", .func), ("FINST", .finst), ("ECUI", .ecui), ("MFG", .mfg),
    ("IDN", .idn), ("CMP", .cmp)]

/-- The mnemonics (30_encoding.md R50). -/
def mnemonics : List (String × Instr) :=
  [("FRAME_DECODE", .frameDecode), ("FRAME_ENCODE", .frameEncode), ("PGN_PACK", .pgnPack),
    ("NAME_DECODE", .nameDecode), ("NAME_ENCODE", .nameEncode), ("NAME_COMPARE", .nameCompare),
    ("NAME_TO_BYTES", .nameToBytes), ("NAME_FROM_BYTES", .nameFromBytes)]

/-- Look a word up in a table of names. -/
def named {α : Type} (table : List (String × α)) (w : List Char) : Option α :=
  (table.find? fun p => p.1.toList == w).map Prod.snd

/-- A lane number in brackets: `0` to `7` (R53, `lane`). -/
def laneIndexOf : List Char → Option (Fin 8)
  | ['[', c, ']'] => (digitOf 8 c).bind fun d => if h : d < 8 then some ⟨d, h⟩ else none
  | _ => none

/-- A lane of a lane register: its name, then the lane number in brackets. -/
def laneOf (w : List Char) : Option (LaneReg × Fin 8) :=
  (named laneNames (w.takeWhile (· ≠ '['))).bind fun l =>
    (laneIndexOf (w.dropWhile (· ≠ '['))).map fun i => (l, i)

/-- A register or lane (R53, `reg`). -/
def regOf : List Char → Option Reg
  | ['S', 'T', 'A', 'T', 'U', 'S'] => some .status
  | ['C', 'M', 'D'] => some .cmd
  | 'I' :: 'N' :: '.' :: w =>
    ((named inNames w).map Reg.inp).or ((laneOf w).map fun p => .inp (.lane p.1 p.2))
  | 'O' :: 'U' :: 'T' :: '.' :: w =>
    ((named outNames w).map Reg.out).or ((laneOf w).map fun p => .out (.lane p.1 p.2))
  | _ => none

/-- A whole lane register of IN (R53, `lanereg`). -/
def laneRegOf : List Char → Option LaneReg
  | 'I' :: 'N' :: '.' :: w => named laneNames w
  | _ => none

/-- Numbers that each follow a comma. -/
def numbersOf : List (List Char) → Option (List Nat)
  | [] => some []
  | [','] :: n :: rest => (numberOf n).bind fun v => (numbersOf rest).map (v :: ·)
  | _ => none

/-- A line from its words (R53, `line`). -/
def lineOf : List (List Char) → Option HostLine
  | [] => some .blank
  | [['R', 'E', 'S', 'E', 'T']] => some .reset
  | ['W', 'R'] :: r :: [','] :: [n] =>
    (regOf r).bind fun reg => (numberOf n).map fun v => .wr reg v
  | ['R', 'D'] :: [r] => (regOf r).map fun reg => .rd reg none
  | ['R', 'D'] :: r :: ['='] :: [n] =>
    (regOf r).bind fun reg => (numberOf n).map fun v => .rd reg (some v)
  | ['C', 'M', 'D'] :: [m] => (named mnemonics m).map HostLine.cmd
  | ['W', 'R', 'L'] :: l :: ns =>
    (laneRegOf l).bind fun r => (numbersOf ns).map fun vs => .wrl r vs
  | _ => none

/-- Read one line of a host program (R53); `none` when it is no line of the grammar. Whether its
numbers fit what it writes is `HostLine.wf`. -/
def parseLine (line : String) : Option HostLine := lineOf (wordsOf line.toList [])

end Sys2Proof.Machine
end

