-- ==== Sys2Proof/Tests/Slice0.lean ====
section
/-! SUPPORT. Tests with expected results from spec/95_test_vectors.md, and a witness for the hypotheses of
each statement. -/

open Sys2Proof Sys2Proof.Machine

namespace Sys2Proof.Tests

/-- A reset machine whose IN file is `f`. -/
def fed (f : InFile) : State := { State.reset with inp := f }

/-- A reset machine whose host is about to perform `as`. -/
def issuing (as : List Machine.Action) : State := { State.reset with pending := as }

/-- Does the outcome answer a next state with the property? -/
def nextWith (r : Result) (p : State → Bool) : Bool :=
  match r with
  | .next t => p t
  | .fault _ => false
  | .refused _ => false

def threeLanes : Lanes := #v[some 0x11, some 0x22, some 0x33, none, none, none, none, none]
def eightLanes : Lanes := #v[some 0x11, some 0x22, some 0x33, some 0x44, some 0x55, some 0x66,
  some 0x77, some 0x88]

/-- Operands of FRAME_DECODE. -/
def decoding (id : BitVec 29) (n : BitVec 4) (d : Lanes) : InFile :=
  { InFile.empty with fid := some id, flen := some n, fdata := d }

/-- Operands of FRAME_ENCODE. -/
def encoding (p r dp pf ps sa n : BitVec 8) (d : Lanes) : InFile :=
  { InFile.empty with prio := some p, rbit := some r, dp := some dp, pf := some pf, ps := some ps,
                      sa := some sa, len := some n, data := d }

/-- Operands of PGN_PACK. -/
def packing (p : BitVec 8) (g : BitVec 32) (da sa n : BitVec 8) (d : Lanes) : InFile :=
  { InFile.empty with prio := some p, pgn := some g, da := some da, sa := some sa, len := some n,
                      data := d }

/-- Operands of NAME_ENCODE. -/
def naming (aac ig vsi vs rsv fn fi ecu : BitVec 8) (mfg : BitVec 16) (idn : BitVec 32) : InFile :=
  { InFile.empty with aac := some aac, ig := some ig, vsi := some vsi, vs := some vs,
                      nrsv := some rsv, func := some fn, finst := some fi, ecui := some ecu,
                      mfg := some mfg, idn := some idn }

/-- The two NAME operands. -/
def names (a b : BitVec 64) : InFile := { InFile.empty with nameA := some a, nameB := some b }

/-! Decoding: words written out from 30_encoding.md R46 and R50. -/

theorem test_word_frame_decode : decode 0b00000001 = .ok .frameDecode := by rfl
theorem test_word_frame_encode : decode 0b00000010 = .ok .frameEncode := by rfl
theorem test_word_pgn_pack : decode 0b00000011 = .ok .pgnPack := by rfl
theorem test_word_name_decode : decode 0b00000100 = .ok .nameDecode := by rfl
theorem test_word_name_encode : decode 0b00000101 = .ok .nameEncode := by rfl
theorem test_word_name_compare : decode 0b00000110 = .ok .nameCompare := by rfl
theorem test_word_name_to_bytes : decode 0b00000111 = .ok .nameToBytes := by rfl
theorem test_word_name_from_bytes : decode 0b00001000 = .ok .nameFromBytes := by rfl

/-- CW2 to CW8. -/
theorem test_illegal_words : [0x00, 0x09, 0x0F, 0x10, 0x11, 0xF1, 0xFF].all
    (fun w => (decode w).toOption.isNone) = true := by decide
theorem test_table_word : decodeTableWord 8 0x08 = some .nameFromBytes ∧
    decodeTableWord 8 0x11 = none ∧ decodeTableWord 16 0x0101 = none := by decide

/-! Well-formedness: a term that each check refuses. -/

theorem smoke_wf_command : Instr.wf .pgnPack = true := by decide
theorem smoke_wf_wr_too_wide : (HostLine.wr (.inp .fid) (2 ^ 29)).wf = false := by decide
theorem smoke_wf_rd_stated_too_wide : (HostLine.rd (.out .cmp) (some 4)).wf = false := by decide
theorem smoke_wf_wrl_empty : (HostLine.wrl .data []).wf = false := by decide
theorem smoke_wf_wrl_too_long :
    (HostLine.wrl .data [0, 1, 2, 3, 4, 5, 6, 7, 8]).wf = false := by decide
theorem smoke_wf_wrl_no_byte : (HostLine.wrl .nbytes [256]).wf = false := by decide

/-! Host program text: lines of 95_test_vectors.md. -/

theorem test_parse_wr :
    parseLine "WR  IN.FID, 0x18EEFF80" = some (.wr (.inp .fid) 0x18EEFF80) := by decide
theorem test_parse_rd : parseLine "RD  OUT.NBYTES[7] = 0x23" =
    some (.rd (.out (.lane .nbytes 7)) (some 0x23)) := by decide
theorem test_parse_cmd : parseLine "CMD NAME_COMPARE                      ; word 0x06" =
    some (.cmd .nameCompare) := by decide
theorem test_parse_wrl :
    parseLine "WRL IN.DATA, 0x11, 0x22, 0x33" = some (.wrl .data [0x11, 0x22, 0x33]) := by decide
theorem test_parse_rejects : parseLine "WR IN.FDATA[8], 1" = none ∧ parseLine "CMD NOP" = none := by
  decide
theorem test_expand_wrl : (HostLine.wrl .data [0x11, 0x22]).expand =
    [.wr (.inp (.lane .data 0)) 0x11, .wr (.inp (.lane .data 1)) 0x22] := by decide

/-! FRAME_DECODE: FD3 (PF 239), FD4 (PF 240). -/

theorem test_frame_decode_pdu1 :
    nextWith (exec .frameDecode (fed (decoding 0x0CEF1234 0 emptyLanes))) (fun t =>
      t.out.pdu.prio = some 3 ∧ t.out.pdu.pf = some 0xEF ∧ t.out.pdu.ps = some 0x12 ∧
      t.out.pdu.sa = some 0x34 ∧ t.out.pdu.pdu2 = some 0 ∧ t.out.pdu.da = some 0x12 ∧
      t.out.pdu.ge = none ∧ t.out.pdu.pgn = some 0x0EF00 ∧ t.status = 0x80) = true := by decide
theorem test_frame_decode_pdu2 :
    nextWith (exec .frameDecode (fed (decoding 0x0CF01234 3 eightLanes))) (fun t =>
      t.out.pdu.pdu2 = some 1 ∧ t.out.pdu.da = none ∧ t.out.pdu.ge = some 0x12 ∧
      t.out.pdu.pgn = some 0x0F012 ∧ t.out.pdu.len = some 3 ∧ t.out.pdu.data = threeLanes) =
      true := by decide

/-! FRAME_ENCODE: FE4, FE10. -/

theorem test_frame_encode :
    nextWith (exec .frameEncode (fed (encoding 3 0 0 0xFE 0xF1 0x00 3 threeLanes))) (fun t =>
      t.out.frame.fid = some 0x0CFEF100 ∧ t.out.frame.flen = some 3 ∧
      t.out.frame.fdata = threeLanes ∧ t.status = 0x80) = true := by decide
theorem test_frame_encode_too_long :
    nextWith (exec .frameEncode (fed (encoding 0 0 0 0 0 0 9 emptyLanes))) (fun t =>
      t.out.frame = .empty ∧ t.status = 0x81) = true := by decide

/-! PGN_PACK: PP9, PP15. -/

theorem test_pgn_pack :
    nextWith (exec .pgnPack (fed (packing 7 0x03EF00 0x12 0x34 0 emptyLanes))) (fun t =>
      t.out.frame.fid = some 0x1FEF1234 ∧ t.status = 0x80) = true := by decide
theorem test_pgn_pack_pdu2_with_destination :
    nextWith (exec .pgnPack (fed (packing 6 0x00F000 0x12 0x34 0 emptyLanes))) (fun t =>
      t.out.frame.fid = none ∧ t.status = 0x81) = true := by decide

/-! NAME_DECODE: ND1. NAME_ENCODE: NE4, NE22. NAME_COMPARE: NC1, NC4. Bytes: NB2, NB3. -/

theorem test_name_decode :
    nextWith (exec .nameDecode (fed (names 0x0123456789ABCDEF 0))) (fun t =>
      t.out.nfields = ⟨some 0, some 0, some 1, some 17, some 1, some 69, some 12, some 7, some 1101,
        some 773615⟩ ∧ t.status = 0x80) = true := by decide
theorem test_name_encode :
    nextWith (exec .nameEncode (fed (naming 0 2 3 0x25 0 0x82 4 1 0x2A5 0x0ABCDE))) (fun t =>
      t.out.name = some 0x234A822154AABCDE ∧ t.status = 0x80) = true := by decide
theorem test_name_encode_too_wide :
    nextWith (exec .nameEncode (fed (naming 0 0 0 0 0 0 0 0 2048 0))) (fun t =>
      t.out.name = none ∧ t.status = 0x82) = true := by decide
theorem test_name_compare :
    nextWith (exec .nameCompare (fed (names 0x80008100FFE12345 0x80008100FFE12346)))
      (fun t => t.out.cmp = some 0b01) = true := by decide
theorem test_name_compare_unsigned :
    nextWith (exec .nameCompare (fed (names 0x8000000000000000 0x7FFFFFFFFFFFFFFF)))
      (fun t => t.out.cmp = some 0b10) = true := by decide
theorem test_name_to_bytes :
    nextWith (exec .nameToBytes (fed (names 0x234A822154AABCDE 0))) (fun t =>
      t.out.nbytes = #v[some 0xDE, some 0xBC, some 0xAA, some 0x54, some 0x21, some 0x82,
        some 0x4A, some 0x23]) = true := by decide
theorem test_name_from_bytes :
    nextWith (exec .nameFromBytes (fed { InFile.empty with nbytes :=
      #v[some 0xEF, some 0xCD, some 0xAB, some 0x89, some 0x67, some 0x45, some 0x23, some 0x01] }))
      (fun t => t.out.name = some 0x0123456789ABCDEF) = true := by decide

/-! Host actions: HA1, HA2, HA5, HA6; the step and the fetched word. -/

theorem test_read_status :
    nextWith (step (issuing [.rd .status])) (fun t => t.observed = [⟨.status, 0x00⟩]) = true := by
  decide
theorem test_read_unwritten :
    step (issuing [.rd (.out .pgn)]) = .fault (.unwrittenRead (.out .pgn)) := by rfl
theorem test_write_status : step (issuing [.wr .status 0]) = .refused (.writeToReadOnly .status) := by
  rfl
theorem test_read_cmd : step (issuing [.rd .cmd]) = .refused .readOfWriteOnly := by rfl
theorem test_fetch_word :
    nextWith (step ((fed (names 1 2)).withFetchWord 8 0x06)) (fun t => t.out.cmp = some 0b01) = true := by
  decide

/-! Witnesses: for each statement with hypotheses, a state and operands that meet them. -/

theorem witness_StepRunsTheDecodedCommand :
    (issuing [.wr .cmd 0x08]).pending = .wr .cmd 0x08 :: [] ∧ decode 0x08 = .ok .nameFromBytes ∧
    decodeTableWord 8 0x01 = some .frameDecode := ⟨rfl, rfl, rfl⟩

/-- The boundary words 0x00, 0x09, 0x0F (`OP`) and 0x10, 0xF1 (`Z`). -/
theorem witness_IllegalWordWritesStatusOnly :
    ∀ w ∈ ([0x00, 0x09, 0x0F, 0x10, 0xF1] : List (BitVec 8)),
      w.extractLsb' 4 4 ≠ 0 ∨ w.extractLsb' 0 4 = 0 ∨ 9 ≤ (w.extractLsb' 0 4).toNat := by decide

/-- FLEN 9 raises; FLEN 3 with lane 2 missing faults; FLEN 0 and 8 succeed, PF 239 and 240. -/
theorem witness_FrameDecodeFollowsItsRule :
    ((fed (decoding 0x0CEF1234 9 emptyLanes)).inp.flen = some 9 ∧ 8 < (9 : BitVec 4).toNat) ∧
    (let s := fed (decoding 0 3 #v[some 1, some 2, none, none, none, none, none, none])
     (∀ j : Fin 8, j < 2 → (s.inp.fdata[j]).isSome) ∧ s.inp.fdata[2] = none) ∧
    LanesWritten .fdata 0 (fed (decoding 0x0CEF1234 0 emptyLanes)) ∧
    LanesWritten .fdata 8 (fed (decoding 0x0CF01234 8 eightLanes)) ∧
    ((0x0CEF1234 : BitVec 29).extractLsb' 16 8).toNat < 240 ∧
    240 ≤ ((0x0CF01234 : BitVec 29).extractLsb' 16 8).toNat := by decide

/-- The scalar fault clauses: IN.FID written and IN.FLEN not. -/
theorem witness_FirstUnwrittenFaults :
    let s := fed { InFile.empty with fid := some 0 }
    ([.fid, .flen] : List InReg) = [.fid] ++ .flen :: [] ∧ (s.inp.get .fid).isSome ∧
      s.inp.get .flen = none := ⟨rfl, rfl, rfl⟩

/-- PRIO 8, R 2, DP 2, LEN 9 raise; PRIO 7, R 1, DP 1, LEN 8 succeed; a missing lane faults. -/
theorem witness_FrameEncodeFollowsItsRule :
    (7 < (8 : BitVec 8).toNat ∧ 1 < (2 : BitVec 8).toNat ∧ 8 < (9 : BitVec 8).toNat) ∧
    LanesWritten .data 8 (fed (encoding 7 1 1 0xFF 0xFF 0xFF 8 eightLanes)) ∧
    (let s := fed (encoding 6 0 0 0xEE 0xFF 0x80 4 threeLanes)
     (∀ j : Fin 8, j < 3 → (s.inp.data[j]).isSome) ∧ s.inp.data[3] = none) := by decide

/-- Each raising clause at its boundary, and both kinds of PGN that succeed. -/
theorem witness_PgnPackFollowsItsRule :
    (0x3FFFF < (0x40000 : BitVec 32).toNat ∧
      (240 ≤ (0xF000 : BitVec 32).toNat / 2 ^ 8 % 2 ^ 8 ∧ (0xFE : BitVec 8) ≠ 0xFF) ∧
      ((0xEF01 : BitVec 32).toNat / 2 ^ 8 % 2 ^ 8 < 240 ∧
        (0xEF01 : BitVec 32).toNat % 2 ^ 8 ≠ 0)) ∧
    ((0x3FFFF : BitVec 32).toNat ≤ 0x3FFFF ∧ 240 ≤ (0x3FFFF : BitVec 32).toNat / 2 ^ 8 % 2 ^ 8 ∧
      (0xFF : BitVec 8).toNat = (0x3FFFF : BitVec 32).toNat % 2 ^ 8) ∧
    ((0x3EF00 : BitVec 32).toNat / 2 ^ 8 % 2 ^ 8 < 240 ∧
      (0x3EF00 : BitVec 32).toNat % 2 ^ 8 = 0) ∧
    LanesWritten .data 8 (fed (packing 7 0x3FFFF 0xFF 0xFF 8 eightLanes)) ∧
    (let s := fed (packing 6 0x0EF00 0x12 0x34 1 emptyLanes)
     s.inp.data[0] = none) := by decide

theorem witness_NameDecodeFollowsItsRule : (fed (names 0 0)).inp.nameA = some 0 := rfl

/-- Each field one above its maximum, and every field at its maximum. -/
theorem witness_NameEncodeFollowsItsRule :
    (1 < (2 : BitVec 8).toNat ∧ 7 < (8 : BitVec 8).toNat ∧ 15 < (16 : BitVec 8).toNat ∧
      127 < (128 : BitVec 8).toNat ∧ 31 < (32 : BitVec 8).toNat ∧
      2047 < (2048 : BitVec 16).toNat ∧ 0x1FFFFF < (0x200000 : BitVec 32).toNat) ∧
    nextWith (exec .nameEncode (fed (naming 1 7 15 127 1 255 31 7 2047 0x1FFFFF)))
      (fun t => t.out.name = some 0xFFFFFFFFFFFFFFFF) = true := by decide

theorem witness_NameCompareFollowsItsRule :
    (fed (names 0 0)).inp.nameA = some 0 ∧ (fed (names 0 0)).inp.nameB = some 0 ∧
    (0 : BitVec 64).toNat < (0xFFFFFFFFFFFFFFFF : BitVec 64).toNat := by decide

theorem witness_NameToBytesFollowsItsRule :
    (fed (names 0xFFFFFFFFFFFFFFFF 0)).inp.nameA = some 0xFFFFFFFFFFFFFFFF := rfl

/-- Eight lanes written; and only lane 7 missing. -/
theorem witness_NameFromBytesFollowsItsRule :
    LanesWritten .nbytes 8 (fed { InFile.empty with nbytes := eightLanes }) ∧
    (let s := fed { InFile.empty with nbytes := eightLanes.set 7 none }
     (∀ j : Fin 8, j < 7 → (s.inp.nbytes[j]).isSome) ∧ s.inp.nbytes[7] = none) := by decide

/-- FRAME_ENCODE and PGN_PACK with code 1 (PRIO 8), and with code 0 (PRIO 7). -/
theorem witness_InvalidPduCauses :
    nextWith (exec .frameEncode (fed (encoding 8 0 0 0 0 0 0 emptyLanes)))
      (fun t => t.status.extractLsb' 0 3 = 1) = true ∧
    nextWith (exec .frameEncode (fed (encoding 7 0 0 0 0 0 0 emptyLanes)))
      (fun t => t.status.extractLsb' 0 3 = 0) = true ∧
    nextWith (exec .pgnPack (fed (packing 8 0 0 0 0 emptyLanes)))
      (fun t => t.status.extractLsb' 0 3 = 1) = true ∧
    nextWith (exec .pgnPack (fed (packing 7 0 0 0 0 emptyLanes)))
      (fun t => t.status.extractLsb' 0 3 = 0) = true := by decide

theorem witness_InvalidNameCause :
    nextWith (exec .nameEncode (fed (naming 2 0 0 0 0 0 0 0 0 0)))
      (fun t => t.status.extractLsb' 0 3 = 2) = true ∧
    nextWith (exec .nameEncode (fed (naming 1 0 0 0 0 0 0 0 0 0)))
      (fun t => t.status.extractLsb' 0 3 = 0) = true := by decide

theorem witness_InvalidFrameCause :
    nextWith (exec .frameDecode (fed (decoding 0 15 emptyLanes)))
      (fun t => t.status.extractLsb' 0 3 = 3) = true ∧
    nextWith (exec .frameDecode (fed (decoding 0 8 eightLanes)))
      (fun t => t.status.extractLsb' 0 3 = 0) = true := by decide

/-- A legal and an illegal word that step to a next state. -/
theorem witness_ErrorCodesByCommand :
    nextWith (act (.wr .cmd 0x06) (fed (names 0 0))) (fun _ => true) = true ∧
    nextWith (act (.wr .cmd 0x00) State.reset) (fun t => t.status = 0x84) = true := by decide

theorem witness_ErrorCommitClearsTheGroup :
    nextWith (exec .frameDecode (fed (decoding 0 9 emptyLanes)))
      (fun t => t.status.extractLsb' 0 3 ≠ 0) = true ∧
    (decode 0xFF).toOption = none ∧
    nextWith (act (.wr .cmd 0xFF) State.reset) (fun _ => true) = true := by decide

/-- Each command answers a next state on some operands. -/
theorem witness_CommandFrame :
    nextWith (exec .frameDecode (fed (decoding 0 0 emptyLanes))) (fun _ => true) = true ∧
    nextWith (exec .frameEncode (fed (encoding 0 0 0 0 0 0 0 emptyLanes))) (fun _ => true) = true ∧
    nextWith (exec .pgnPack (fed (packing 0 0 0 0 0 emptyLanes))) (fun _ => true) = true ∧
    nextWith (exec .nameDecode (fed (names 0 0))) (fun _ => true) = true ∧
    nextWith (exec .nameEncode (fed (naming 0 0 0 0 0 0 0 0 0 0))) (fun _ => true) = true ∧
    nextWith (exec .nameCompare (fed (names 0 0))) (fun _ => true) = true ∧
    nextWith (exec .nameToBytes (fed (names 0 0))) (fun _ => true) = true ∧
    nextWith (exec .nameFromBytes (fed { InFile.empty with nbytes := eightLanes }))
      (fun _ => true) = true := by decide

theorem witness_FrameDecodeIsTotal :
    (fed (decoding 0x1FFFFFFF 8 eightLanes)).inp.fid = some 0x1FFFFFFF ∧
    (8 : BitVec 4).toNat ≤ 8 ∧ LanesWritten .fdata 8 (fed (decoding 0x1FFFFFFF 8 eightLanes)) := by
  decide

/-- P4: the encoded frame copied into IN, and the decoded PDU copied back. -/
theorem witness_EncodeThenDecodeReturnsThePdu :
    nextWith (exec .frameEncode (fed (encoding 3 0 0 0xFE 0xF1 0 3 threeLanes))) (fun t =>
      let u := fed (decoding 0x0CFEF100 3 threeLanes)
      t.status.extractLsb' 0 3 = 0 ∧ u.inp.fid = t.out.frame.fid ∧
      u.inp.flen = t.out.frame.flen ∧ u.inp.fdata = t.out.frame.fdata) = true := by decide

theorem witness_DecodeThenEncodeReturnsTheFrame :
    nextWith (exec .frameDecode (fed (decoding 0x0CFEF100 3 threeLanes))) (fun t =>
      let u := fed (encoding 3 0 0 0xFE 0xF1 0 3 threeLanes)
      t.status.extractLsb' 0 3 = 0 ∧ u.inp.prio = t.out.pdu.prio.map (BitVec.setWidth 8) ∧
      u.inp.rbit = t.out.pdu.rbit.map (BitVec.setWidth 8) ∧
      u.inp.dp = t.out.pdu.dp.map (BitVec.setWidth 8) ∧ u.inp.pf = t.out.pdu.pf ∧
      u.inp.ps = t.out.pdu.ps ∧ u.inp.sa = t.out.pdu.sa ∧
      u.inp.len = t.out.pdu.len.map (BitVec.setWidth 8) ∧ u.inp.data = t.out.pdu.data) =
      true := by decide

theorem witness_PgnPackAgreesWithDecode :
    nextWith (exec .pgnPack (fed (packing 7 0x03EF00 0x12 0x34 0 emptyLanes))) (fun t =>
      let u := fed (decoding 0x1FEF1234 0 emptyLanes)
      t.status.extractLsb' 0 3 = 0 ∧ u.inp.fid = t.out.frame.fid ∧
      u.inp.flen = t.out.frame.flen) = true := by decide

theorem witness_NameFieldRoundTrip :
    nextWith (exec .nameEncode (fed (naming 1 0 0 0 0 0x81 0 0 0x7FF 0x12345))) (fun t =>
      t.status.extractLsb' 0 3 = 0 ∧ (fed (names 0x80008100FFE12345 0)).inp.nameA = t.out.name) =
      true ∧
    nextWith (exec .nameDecode (fed (names 0x80008100FFE12345 0))) (fun t =>
      let u := fed (naming 1 0 0 0 0 0x81 0 0 0x7FF 0x12345)
      u.inp.aac = t.out.nfields.aac.map (BitVec.setWidth 8) ∧
      u.inp.ig = t.out.nfields.ig.map (BitVec.setWidth 8) ∧
      u.inp.vsi = t.out.nfields.vsi.map (BitVec.setWidth 8) ∧
      u.inp.vs = t.out.nfields.vs.map (BitVec.setWidth 8) ∧
      u.inp.nrsv = t.out.nfields.nrsv.map (BitVec.setWidth 8) ∧
      u.inp.func = t.out.nfields.func ∧
      u.inp.finst = t.out.nfields.finst.map (BitVec.setWidth 8) ∧
      u.inp.ecui = t.out.nfields.ecui.map (BitVec.setWidth 8) ∧
      u.inp.mfg = t.out.nfields.mfg.map (BitVec.setWidth 16) ∧
      u.inp.idn = t.out.nfields.idn.map (BitVec.setWidth 32)) = true := by decide

theorem witness_NameByteRoundTrip :
    nextWith (exec .nameToBytes (fed (names 0x8877665544332211 0))) (fun t =>
      (fed { InFile.empty with nbytes := eightLanes }).inp.nbytes = t.out.nbytes) = true ∧
    nextWith (exec .nameFromBytes (fed { InFile.empty with nbytes := eightLanes })) (fun t =>
      (fed (names 0x8877665544332211 0)).inp.nameA = t.out.name) = true := by decide

theorem witness_ContentionReading :
    (fed (names 1 2)).inp.nameA = some 1 ∧ (fed (names 1 2)).inp.nameB = some 2 := ⟨rfl, rfl⟩

/-- PF 239 and PF 240. -/
theorem witness_PgnOfAnIdentifier :
    (split29 0x0CEF1234).pf.toNat < 240 ∧ 240 ≤ (split29 0x0CF01234).pf.toNat := by decide

theorem witness_HostWrite :
    decode 0x04 = .ok .nameDecode ∧ (decode 0xF1).toOption = none ∧ InReg.flen ≠ .fid := by decide

/-- A cell without and one with a value, in IN and in OUT. -/
theorem witness_HostRead :
    State.reset.inp.get .fid = none ∧ (fed (names 5 0)).inp.get .nameA = some 5 ∧
    State.reset.out.get .pgn = none ∧
    ({ State.reset with out := { OutFile.empty with cmp := some 1 } } : State).out.get .cmp =
      some 1 := ⟨rfl, rfl, rfl, rfl⟩

theorem witness_RefusedActions :
    act (.wr (.out .pgn) 0) State.reset = .refused (.writeToReadOnly (.out .pgn)) ∧
    act (.wr .status 0) State.reset = .refused (.writeToReadOnly .status) ∧
    act (.rd .cmd) State.reset = .refused .readOfWriteOnly := ⟨rfl, rfl, rfl⟩

/-- A pending action of each outcome of R82. -/
theorem witness_OutcomesOfAnAction :
    (issuing [.wr .cmd 0x04]).pending = .wr .cmd 0x04 :: [] ∧
    step (issuing [.wr .cmd 0x04]) = .fault (.unwrittenOperand .nameA) ∧
    step (issuing [.rd (.inp .fid)]) = .fault (.unwrittenRead (.inp .fid)) ∧
    nextWith (step (issuing [.reset])) (fun _ => true) = true := ⟨rfl, rfl, rfl, by decide⟩

/-- A register that an action leaves: IN.FLEN under a write of IN.FID, and OUT.FID under
NAME_COMPARE. -/
theorem witness_RegistersPersist :
    nextWith (step (issuing [.wr (.inp .fid) 0])) (fun _ => true) = true ∧
    (.wr (.inp .fid) 0 : Machine.Action) ≠ .reset ∧ InReg.flen ≠ .fid ∧
    decode 0x06 = .ok .nameCompare ∧ resultGroup .nameCompare ≠ OutReg.group .fid :=
  ⟨by decide, by decide, by decide, rfl, by decide⟩

theorem witness_WriteThenReadReturnsTheValue :
    (issuing [.wr (.inp .fid) 0x123, .rd (.inp .fid)]).pending =
      .wr (.inp .fid) 0x123 :: .rd (.inp .fid) :: [] := rfl

theorem witness_ActionsTakeEffectInOrder :
    nextWith (runActions ([.wr (.inp .fid) 1] ++ [.rd .status]) State.reset) (fun _ => true) =
      true := by decide

theorem witness_WritesToDifferentRegistersCommute : InReg.fid ≠ .flen := by decide

theorem witness_EndingWellIsPrefixClosed : EndsWell ([.reset] ++ [.rd .status]) := ⟨_, rfl⟩

/-- Two states with the same IN that differ elsewhere: an answer and a fault. -/
theorem witness_CommandDependsOnInOnly :
    (fed (names 1 2)).inp = { fed (names 1 2) with status := 0x84 }.inp ∧
    nextWith (exec .nameCompare (fed (names 1 2))) (fun _ => true) = true ∧
    exec .nameCompare State.reset = .fault (.unwrittenOperand .nameA) := ⟨rfl, by decide, rfl⟩

theorem witness_CommandIsIdempotent :
    nextWith (exec .nameCompare (fed (names 1 2))) (fun _ => true) = true := by decide

/-- FD17 and FD18: the lanes differ at and above the length 3 only. -/
theorem witness_LanesAboveTheLengthAreNotRead :
    (∀ k : Fin 8, k.val < 3 → eightLanes[k] = (fed (decoding 0x18FEF100 3 threeLanes)).inp.fdata[k]) ∧
    (fed (decoding 0x18FEF100 3 threeLanes)).inp.len = none ∧
    nextWith (exec .frameDecode (fed (decoding 0x18FEF100 3 threeLanes))) (fun _ => true) = true := by
  decide

theorem witness_SourceAddressIsNotJudged :
    nextWith (exec .pgnPack (fed (packing 6 0xEE00 0xFF 0x80 0 emptyLanes))) (fun _ => true) =
      true := by decide

/-- The reset state satisfies the invariant, and a step leaves it. -/
theorem witness_StepKeepsStateInv :
    statusReserved State.reset.status = 0 ∧ State.reset.out = .empty ∧
    nextWith (step (issuing [.wr .cmd 0x00])) (fun t => t.status = 0x84) = true := by decide

theorem witness_InstancesShareNothing :
    (match stepInstance 1 [State.reset, issuing [.wr (.inp .sa) 7]] with
      | .next sys => sys.length == 2
      | .fault _ => false
      | .refused _ => false) = true := by decide

theorem witness_PseudoActionsExpand :
    decode 0x03 = .ok .pgnPack ∧ (HostLine.wrl .nbytes [0]).wf = true ∧
    (HostLine.wrl .nbytes [0, 1, 2, 3, 4, 5, 6, 255]).wf = true := ⟨rfl, by decide, by decide⟩

theorem witness_StepPerformsTheNextAction :
    State.reset.pending = [] ∧ (issuing [.reset]).pending = .reset :: [] := ⟨rfl, rfl⟩

/-- From reset, two writes in either order and then NAME_COMPARE; with one of them left out the command
names the operand that is missing. -/
theorem witness_CommandsRunOnceTheirOperandsAreWritten :
    (match runActions [.wr (.inp .nameB) 2, .wr (.inp .nameA) 1] State.reset with
      | .next s => (scalarOperands .nameCompare).all (fun q => (s.inp.get q).isSome) &&
          (laneOperand s .nameCompare).isNone
      | .fault _ => false
      | .refused _ => false) = true ∧
    runActions [.wr (.inp .nameA) 1, .wr .cmd 0x06] State.reset =
      .fault (.unwrittenOperand .nameB) := ⟨by decide, rfl⟩

end Sys2Proof.Tests
end

section
/-! The state after reset (10_state.md R27). -/

namespace Sys2Proof.Machine

@[simp] theorem State.reset_inp : State.reset.inp = .empty := rfl
@[simp] theorem State.reset_out : State.reset.out = .empty := rfl
@[simp] theorem State.reset_status : State.reset.status = 0 := rfl

@[simp] theorem content_cmd (s : State) : content s .cmd = none := rfl

/-- Settles O30: both register files are the empty ones, STATUS is the zero word, and CMD has no
content in any state. -/
theorem resetState : Obligations.ResetState := by
  unfold Obligations.ResetState
  rw [State.reset_inp, State.reset_out, State.reset_status]
  exact ⟨InFile.get_empty, OutFile.get_empty, BitVec.extractLsb'_zero, BitVec.extractLsb'_zero,
    BitVec.extractLsb'_zero, content_cmd _⟩

end Sys2Proof.Machine
end

section
/-! The host's write (20_memory.md R32). -/

namespace Sys2Proof.Machine

theorem act_wr_inp (s : State) (q : InReg) (v : BitVec q.width) :
    act (.wr (.inp q) v) s = .next { s with inp := s.inp.set q v } := rfl

theorem act_wr_out (s : State) (q : OutReg) (v : BitVec q.width) :
    act (.wr (.out q) v) s = .refused (.writeToReadOnly (.out q)) := rfl

theorem act_wr_status (s : State) (v : BitVec 8) :
    act (.wr .status v) s = .refused (.writeToReadOnly .status) := rfl

/-- A word of the command map runs its command (30_encoding.md R48). -/
theorem act_wr_cmd_of_ok {w : BitVec 8} {i : Instr} (h : decode w = .ok i) (s : State) :
    act (.wr .cmd w) s = exec i s := by
  simp [act, hostWrite, execute, h]

/-- Any other word raises `IllegalCommand` (60_exceptions.md R86). -/
theorem act_wr_cmd_of_illegal {w : BitVec 8} (h : (decode w).toOption = none) (s : State) :
    act (.wr .cmd w) s = .next (raise .illegalCommand none s) := by
  cases hd : decode w with
  | ok i => simp [hd, Except.toOption] at h
  | error e => simp [act, hostWrite, execute, hd]

/-- Every `raise` commits its code to STATUS (60_exceptions.md R90). -/
theorem committed_raise (e : ErrorCause) (i : Option Instr) (s : State) :
    Committed e.code s (raise e i s) :=
  ⟨statusErr_statusCommit _ _, statusValid_statusCommit _ _, statusReserved_statusCommit _ _⟩

/-- Settles O32: one lemma per kind of register, and read after write of the IN file. (The name
`hostWrite` is the model's function.) -/
theorem hostWrite_holds : Obligations.HostWrite := by
  unfold Obligations.HostWrite
  intro s
  refine ⟨fun q v => ?inp, fun w i h => act_wr_cmd_of_ok h s, fun w h => ?illegal,
    act_wr_out s, act_wr_status s⟩
  case inp =>
    exact ⟨_, act_wr_inp s q v, InFile.get_set_same _ q v,
      fun p hp => InFile.get_set_other _ q p v hp, rfl, rfl, rfl, rfl⟩
  case illegal =>
    exact ⟨_, act_wr_cmd_of_illegal h s, committed_raise _ _ s, rfl, rfl⟩

end Sys2Proof.Machine
end

section
/-! Noninterference of the data lanes at or above the length (20_memory.md R45). The commands commute
with a change of those lanes: each read they make answers the same, and each commit leaves IN. -/

namespace Sys2Proof.Machine

/-- The lanes below `n` are the same in `a` and `b`. -/
def AgreeBelow (n : Nat) (a b : Lanes) : Prop := ∀ k : Fin 8, k.val < n → a[k] = b[k]

theorem keepBelow_congr {n : Nat} {a b : Lanes} (h : AgreeBelow n a b) :
    keepBelow a n = keepBelow b n :=
  lanes_ext fun k => by
    rw [keepBelow_getElem, keepBelow_getElem]
    exact ite_congr rfl (h k) fun _ => rfl

theorem firstUnwritten_congr {n : Nat} {a b : Lanes} (h : AgreeBelow n a b) :
    firstUnwritten a n = firstUnwritten b n := by
  have hp : ∀ i : Fin 8, (decide (i.val < n) && (a[i]).isNone) =
      (decide (i.val < n) && (b[i]).isNone) := by
    intro i
    by_cases hi : i.val < n
    · rw [h i hi]
    · simp [hi]
  simp only [firstUnwritten, hp]

/-- Apply `f` to the next state an outcome answers; a fault or refusal stays. -/
def mapNext (f : State → State) : Result → Result
  | .next s => .next (f s)
  | .fault r => .fault r
  | .refused r => .refused r

@[simp] theorem mapNext_next (f : State → State) (s : State) :
    mapNext f (.next s) = .next (f s) := rfl
@[simp] theorem mapNext_fault (f : State → State) (r : Fault) :
    mapNext f (.fault r) = .fault r := rfl

/-- A scalar operand that holds the same in `u` as in `s`. -/
theorem operand_mapNext {f : State → State} {r : InReg} {s u : State}
    {k k' : BitVec r.width → Result} (hr : u.inp.get r = s.inp.get r)
    (hk : ∀ v, s.inp.get r = some v → k' v = mapNext f (k v)) :
    operand r u k' = mapNext f (operand r s k) := by
  cases hs : s.inp.get r with
  | none => rw [operand_none hs, operand_none (hr.trans hs), mapNext_fault]
  | some v => rw [operand_some hs, operand_some (hr.trans hs), hk v hs]

/-- A lane register that holds the same in `u` as in `s` below the length. -/
theorem laneOperands_mapNext {f : State → State} {l : LaneReg} {n : Nat} {s u : State}
    {k k' : Lanes → Result} (hl : AgreeBelow n (u.inp.lanes l) (s.inp.lanes l))
    (hk : ∀ d, k' d = mapNext f (k d)) :
    laneOperands l n u k' = mapNext f (laneOperands l n s k) := by
  unfold laneOperands
  rw [firstUnwritten_congr hl, keepBelow_congr hl]
  cases firstUnwritten (s.inp.lanes l) n with
  | none => exact hk _
  | some i => rfl

/-- `s` with other content in the two lane registers that are read below a length. -/
def State.withDataLanes (fd d : Lanes) (s : State) : State :=
  { s with inp := { s.inp with fdata := fd, data := d } }

theorem frameResult_withDataLanes {s : State} {fd d : Lanes} {f : IdFields} {n : BitVec 8}
    (h : AgreeBelow n.toNat d s.inp.data) :
    frameResult f n (s.withDataLanes fd d) =
      mapNext (State.withDataLanes fd d) (frameResult f n s) :=
  laneOperands_mapNext h fun _ => rfl

theorem execFrameDecode_withDataLanes {s : State} {fd d : Lanes}
    (h : ∀ n, s.inp.flen = some n → AgreeBelow n.toNat fd s.inp.fdata) :
    execFrameDecode (s.withDataLanes fd d) =
      mapNext (State.withDataLanes fd d) (execFrameDecode s) := by
  refine operand_mapNext rfl fun id _ => operand_mapNext rfl fun n hn => ?_
  split
  · rfl
  · exact laneOperands_mapNext (h n hn) fun _ => rfl

theorem execFrameEncode_withDataLanes {s : State} {fd d : Lanes}
    (h : ∀ n, s.inp.len = some n → AgreeBelow n.toNat d s.inp.data) :
    execFrameEncode (s.withDataLanes fd d) =
      mapNext (State.withDataLanes fd d) (execFrameEncode s) := by
  iterate 6 refine operand_mapNext rfl fun _ _ => ?_
  refine operand_mapNext rfl fun n hn => ?_
  split
  · rfl
  · exact frameResult_withDataLanes (h n hn)

theorem execPgnPack_withDataLanes {s : State} {fd d : Lanes}
    (h : ∀ n, s.inp.len = some n → AgreeBelow n.toNat d s.inp.data) :
    execPgnPack (s.withDataLanes fd d) =
      mapNext (State.withDataLanes fd d) (execPgnPack s) := by
  iterate 4 refine operand_mapNext rfl fun _ _ => ?_
  refine operand_mapNext rfl fun n hn => ?_
  split
  · rfl
  · split
    · rfl
    · exact frameResult_withDataLanes (h n hn)

theorem execNameEncode_withDataLanes (s : State) (fd d : Lanes) :
    execNameEncode (s.withDataLanes fd d) =
      mapNext (State.withDataLanes fd d) (execNameEncode s) := by
  iterate 10 refine operand_mapNext rfl fun _ _ => ?_
  split <;> rfl

theorem execNameFromBytes_withDataLanes (s : State) (fd d : Lanes) :
    execNameFromBytes (s.withDataLanes fd d) =
      mapNext (State.withDataLanes fd d) (execNameFromBytes s) := by
  iterate 8 refine operand_mapNext rfl fun _ _ => ?_
  rfl

/-- Every command commutes with a change of the data lanes at or above the length. -/
theorem exec_withDataLanes (i : Instr) {s : State} {fd d : Lanes}
    (hfd : ∀ n, s.inp.flen = some n → AgreeBelow n.toNat fd s.inp.fdata)
    (hd : ∀ n, s.inp.len = some n → AgreeBelow n.toNat d s.inp.data) :
    exec i (s.withDataLanes fd d) = mapNext (State.withDataLanes fd d) (exec i s) := by
  cases i with
  | frameDecode => exact execFrameDecode_withDataLanes hfd
  | frameEncode => exact execFrameEncode_withDataLanes hd
  | pgnPack => exact execPgnPack_withDataLanes hd
  | nameDecode => exact operand_mapNext rfl fun _ _ => rfl
  | nameEncode => exact execNameEncode_withDataLanes s fd d
  | nameCompare => exact operand_mapNext rfl fun _ _ => operand_mapNext rfl fun _ _ => rfl
  | nameToBytes => exact operand_mapNext rfl fun _ _ => rfl
  | nameFromBytes => exact execNameFromBytes_withDataLanes s fd d

/-- Settles O43: a command commutes with the change of the lanes, and keeps the rest of IN. -/
theorem lanesAboveTheLengthAreNotRead : Obligations.LanesAboveTheLengthAreNotRead := by
  unfold Obligations.LanesAboveTheLengthAreNotRead
  intro i s fd d hfd hd
  have hexec := exec_withDataLanes i hfd hd
  constructor
  · intro t ht
    obtain ⟨hinp, -, -⟩ := exec_host_side ht
    rw [ht, mapNext_next, State.withDataLanes, State.withDataLanes, hinp] at hexec
    exact hexec
  · intro f hf
    rw [hf, mapNext_fault] at hexec
    exact hexec

end Sys2Proof.Machine
end

section
/-! The identifier and its PGN (30_encoding.md R55, R58, R59). -/

namespace Sys2Proof.Machine

/-- Neighbouring slices of an identifier join to one slice, down to the whole identifier. -/
theorem pack29_split29 (id : BitVec 29) : pack29 (split29 id) = id := by
  unfold pack29 split29
  iterate 5 rw [BitVec.extractLsb'_append_extractLsb'_eq_extractLsb' (by rfl)]
  exact BitVec.extractLsb'_eq_self

/-- Each slice of a packed identifier is the field packed at its position, as a number. -/
theorem split29_pack29 (f : IdFields) : split29 (pack29 f) = f := by
  cases f
  simp only [split29, IdFields.mk.injEq]
  refine ⟨?_, ?_, ?_, ?_, ?_, ?_⟩
  all_goals
    apply BitVec.eq_of_toNat_eq
    simp only [toNat_slice, pack29_toNat]
    omega

/-- Settles O27: both inverse laws; the slices are the definition of `split29`. -/
theorem identifierSplitAndPackAreInverse : Obligations.IdentifierSplitAndPackAreInverse :=
  ⟨pack29_split29, split29_pack29, fun _ => rfl⟩

/-- The PGN of a PDU2 carries PS (30_encoding.md R59). -/
theorem pgnOf_of_pdu2 {pf : BitVec 8} (h : 240 ≤ pf.toNat) (rbit dp : BitVec 1) (ps : BitVec 8) :
    pgnOf rbit dp pf ps = (rbit ++ dp ++ pf ++ ps : BitVec (1 + 1 + 8 + 8)) :=
  if_pos (decide_eq_true h)

/-- The PGN of a PDU1 has a zero low byte (30_encoding.md R59). -/
theorem pgnOf_of_pdu1 {pf : BitVec 8} (h : pf.toNat < 240) (rbit dp : BitVec 1) (ps : BitVec 8) :
    pgnOf rbit dp pf ps = (rbit ++ dp ++ pf ++ 0x00#8 : BitVec (1 + 1 + 8 + 8)) :=
  if_neg (by simpa [isPdu2, Config.pdu2Min] using h)

/-- The four parts of a PGN as the source's formula combines them (30_encoding.md R59). -/
theorem toNat_pgn_parts (rbit dp : BitVec 1) (pf low : BitVec 8) :
    (rbit ++ dp ++ pf ++ low : BitVec (1 + 1 + 8 + 8)).toNat =
      (rbit.toNat <<< 17) ||| (dp.toNat <<< 16) ||| (pf.toNat <<< 8) ||| low.toNat := by
  simp only [BitVec.toNat_append, Nat.shiftLeft_or_distrib, ← Nat.shiftLeft_add]

/-- R, DP and PF stand next to each other in the identifier. -/
theorem split29_rbit_dp_pf (id : BitVec 29) :
    ((split29 id).rbit ++ (split29 id).dp ++ (split29 id).pf : BitVec (1 + 1 + 8)) =
      id.extractLsb' 16 10 := by
  unfold split29
  iterate 2 rw [BitVec.extractLsb'_append_extractLsb'_eq_extractLsb' (by rfl)]

/-- PS stands right below R, DP and PF. -/
theorem split29_rbit_dp_pf_ps (id : BitVec 29) :
    ((split29 id).rbit ++ (split29 id).dp ++ (split29 id).pf ++ (split29 id).ps :
      BitVec (1 + 1 + 8 + 8)) = id.extractLsb' 8 18 := by
  rw [split29_rbit_dp_pf]
  exact BitVec.extractLsb'_append_extractLsb'_eq_extractLsb' rfl

/-- Settles O28: per PDU kind, the parts of the PGN as a slice and as a number. -/
theorem pgnOfAnIdentifier : Obligations.PgnOfAnIdentifier := by
  unfold Obligations.PgnOfAnIdentifier
  refine fun id => ⟨fun hpdu2 => ?_, fun hpdu1 => ?_⟩
  · rw [pgnOf_of_pdu2 hpdu2]
    exact ⟨split29_rbit_dp_pf_ps id, toNat_pgn_parts _ _ _ _⟩
  · rw [pgnOf_of_pdu1 hpdu1]
    refine ⟨?_, (toNat_pgn_parts _ _ _ _).trans (Nat.or_zero _)⟩
    rw [split29_rbit_dp_pf]

end Sys2Proof.Machine
end

section
/-! Decoding answers the command whose word it read (30_encoding.md R46, R48, R50). -/

namespace Sys2Proof

theorem opOf_of_decodeOp {op : BitVec 4} {i : Instr} (h : decodeOp op = .ok i) : opOf i = op := by
  cases i <;> revert op <;> decide

/-- A command word is its two fields, `Z` above `OP`. -/
theorem wordZ_append_wordOp (w : BitVec 8) : (wordZ w ++ wordOp w : BitVec (4 + 4)) = w :=
  (BitVec.extractLsb'_append_extractLsb'_eq_extractLsb' rfl).trans BitVec.extractLsb'_eq_self

/-- `decode` is inverted by `encode` on every word it accepts. -/
theorem encode_of_decode {w : BitVec 8} {i : Instr} (h : decode w = .ok i) : encode i = w := by
  unfold decode at h
  split at h
  · cases h
  · next hz =>
    have hz : wordZ w = 0#4 := not_not.mp hz
    rw [encode, opOf_of_decodeOp h, ← hz]
    exact wordZ_append_wordOp w

end Sys2Proof
end

section
/-! The two pseudo-actions of a host program (30_encoding.md R54). -/

namespace Sys2Proof.Machine

theorem laneOrder_getElem? (k : Fin 8) : laneOrder[k.val]? = some k := by
  revert k; decide

theorem wrl_length_le {l : LaneReg} {bytes : List Nat} (h : (HostLine.wrl l bytes).wf = true) :
    bytes.length ≤ laneOrder.length := by
  simp only [HostLine.wf, Bool.and_eq_true, decide_eq_true_eq] at h
  obtain ⟨⟨-, hle⟩, -⟩ := h
  exact hle

/-- A `WRL` line of at most eight bytes writes each of them. -/
theorem length_expand_wrl {l : LaneReg} {bytes : List Nat} (h : bytes.length ≤ laneOrder.length) :
    (HostLine.wrl l bytes).expand.length = bytes.length := by
  rw [HostLine.expand, List.length_map, List.length_zip, Nat.min_eq_right h]

/-- The `k`-th action of a `WRL` line writes the `k`-th byte to lane `k`. -/
theorem expand_wrl_getElem? (l : LaneReg) (bytes : List Nat) (k : Fin 8)
    (h : k.val < bytes.length) :
    (HostLine.wrl l bytes).expand[k.val]? =
      some (.wr (.inp (.lane l k)) (BitVec.ofNat 8 bytes[k.val])) := by
  have hzip : (laneOrder.zip bytes)[k.val]? = some (k, bytes[k.val]) :=
    List.getElem?_zip_eq_some.2 ⟨laneOrder_getElem? k, List.getElem?_eq_getElem h⟩
  rw [HostLine.expand, List.getElem?_map, hzip]
  rfl

/-- Settles O48: the command's word is the one that decodes to it, and a `WRL` line pairs the lanes
in order with its bytes. -/
theorem pseudoActionsExpand : Obligations.PseudoActionsExpand := by
  unfold Obligations.PseudoActionsExpand
  refine ⟨fun i w hw => ?cmd, fun l bytes hwf =>
    ⟨length_expand_wrl (wrl_length_le hwf), expand_wrl_getElem? l bytes⟩⟩
  case cmd => rw [HostLine.expand, encode_of_decode hw]

end Sys2Proof.Machine
end

section
/-! The faults of an unwritten operand (60_exceptions.md R92, R94): which read a command that makes its
reads in order stops at. -/

namespace Sys2Proof.Machine

/-- The outcome `res` is the fault of the first of `ops` that holds `⊥`, where there is one. -/
def FaultsAtFirstUnwritten (ops : List InReg) (s : State) (res : Result) : Prop :=
  ∀ before r after, ops = before ++ r :: after →
    (∀ q ∈ before, (s.inp.get q).isSome) → s.inp.get r = none → res = .fault (.unwrittenOperand r)

theorem FaultsAtFirstUnwritten.nil (s : State) (res : Result) : FaultsAtFirstUnwritten [] s res :=
  fun _ _ _ hsplit => absurd hsplit.symm (List.append_ne_nil_of_right_ne_nil _ (List.cons_ne_nil _ _))

/-- One more operand, read before the others. -/
theorem FaultsAtFirstUnwritten.operand {r : InReg} {ops : List InReg} {s : State}
    {k : BitVec r.width → Result} (hk : ∀ v, FaultsAtFirstUnwritten ops s (k v)) :
    FaultsAtFirstUnwritten (r :: ops) s (operand r s k) := by
  intro before r' after hsplit hbefore hr'
  cases before with
  | nil =>
    obtain ⟨rfl, -⟩ := List.cons.inj hsplit
    exact operand_none hr'
  | cons q before =>
    obtain ⟨rfl, hrest⟩ := List.cons.inj hsplit
    obtain ⟨hq, hbefore⟩ := List.forall_mem_cons.1 hbefore
    obtain ⟨v, hv⟩ := Option.isSome_iff_exists.1 hq
    rw [operand_some hv]
    exact hk v before r' after hrest hbefore hr'

/-- Every command reads its scalar operands in order, before anything else. -/
theorem exec_faultsAtFirstUnwritten (i : Instr) (s : State) :
    FaultsAtFirstUnwritten (scalarOperands i) s (exec i s) := by
  cases i with
  | frameDecode =>
    iterate 2 refine .operand fun _ => ?_
    exact .nil _ _
  | frameEncode =>
    iterate 7 refine .operand fun _ => ?_
    exact .nil _ _
  | pgnPack =>
    iterate 5 refine .operand fun _ => ?_
    exact .nil _ _
  | nameDecode => exact .operand fun _ => .nil _ _
  | nameEncode =>
    iterate 10 refine .operand fun _ => ?_
    exact .nil _ _
  | nameCompare =>
    iterate 2 refine .operand fun _ => ?_
    exact .nil _ _
  | nameToBytes => exact .operand fun _ => .nil _ _
  | nameFromBytes =>
    iterate 8 refine .operand fun _ => ?_
    exact .nil _ _

theorem laneOrder_getElem {j : Nat} (hj : j < laneOrder.length) : laneOrder[j] = ⟨j, hj⟩ :=
  Option.some.inj ((List.getElem?_eq_getElem hj).symm.trans (laneOrder_getElem? ⟨j, hj⟩))

/-- The lane found is the one below `n` that holds `⊥` with every lane before it written. -/
theorem firstUnwritten_eq_some_of_first {l : Lanes} {n : Nat} {k : Fin 8} (hk : k.val < n)
    (hbefore : ∀ j : Fin 8, j < k → (l[j]).isSome) (hnone : l[k] = none) :
    firstUnwritten l n = some k := by
  have hlen : k.val < laneOrder.length := k.isLt
  refine List.find?_eq_some_iff_getElem.2
    ⟨by simp [hk, hnone], k.val, hlen, laneOrder_getElem hlen, fun j hj => ?_⟩
  have hj8 : j < 8 := hj.trans k.isLt
  rw [laneOrder_getElem (hj.trans hlen), Option.isNone_eq_false_iff.2 (hbefore ⟨j, hj8⟩ hj)]
  simp

/-- A command that ends by reading the lanes of `l` below `n` faults at the first unwritten one. -/
theorem firstUnwrittenLaneFaults_of_exec_eq {i : Instr} {l : LaneReg} {n : Nat} {s : State}
    {c : Lanes → Result} (hexec : exec i s = laneOperands l n s c) :
    FirstUnwrittenLaneFaults i l n s := by
  intro k hk hbefore hnone
  rw [hexec, laneOperands, firstUnwritten_eq_some_of_first hk hbefore hnone]

end Sys2Proof.Machine
end

section
/-! The two commits of a command, as what they change and what they leave (60_exceptions.md R90, R91). -/

namespace Sys2Proof.Machine

theorem raisedIn_raise (e : ErrorCause) (i : Instr) (s : State) :
    RaisedIn (resultGroup i) e.code s (raise e (some i) s) :=
  ⟨committed_raise e (some i) s,
    ⟨rfl, OutFile.get_clear_other s.out (resultGroup i), rfl, rfl⟩,
    OutFile.get_clear_same s.out (resultGroup i)⟩

theorem committed_succeed (o : OutFile) (s : State) : Committed 0 s (succeed o s) :=
  ⟨statusErr_statusCommit _ _, statusValid_statusCommit _ _, statusReserved_statusCommit _ _⟩

theorem succeededIn_succeed {g : Group} {o : OutFile} {s : State} (h : o.AgreeOutside g s.out) :
    SucceededIn g s (succeed o s) :=
  ⟨committed_succeed o s, rfl, h, rfl, rfl⟩

theorem agreeOutside_with_frame (f : OutFile) (fr : FrameGroup) :
    OutFile.AgreeOutside .frame { f with frame := fr } f := by
  apply agreeOutside_of_eq <;> simp

theorem agreeOutside_with_pdu (f : OutFile) (p : PduGroup) :
    OutFile.AgreeOutside .pdu { f with pdu := p } f := by
  apply agreeOutside_of_eq <;> simp

end Sys2Proof.Machine
end

section
/-! FRAME_DECODE (40_frame_codec.md R65). -/

namespace Sys2Proof.Machine

/-- The kind-dependent registers of a decoded PDU1: PS is the destination. -/
theorem decodedPdu_of_pdu1 {id : BitVec 29} (h : (split29 id).pf.toNat < 240) (n : BitVec 4)
    (d : Lanes) :
    (decodedPdu id n d).pdu2 = some 0 ∧ (decodedPdu id n d).da = some (id.extractLsb' 8 8) ∧
      (decodedPdu id n d).ge = none ∧
      (decodedPdu id n d).pgn = some (id.extractLsb' 16 10 ++ 0x00#8) := by
  have hkind : ¬ isPdu2 (split29 id).pf := by simpa [isPdu2, Config.pdu2Min] using h
  refine ⟨congrArg some (if_neg hkind), if_neg hkind, if_neg hkind, congrArg some ?_⟩
  rw [pgnOf_of_pdu1 h, split29_rbit_dp_pf]

/-- The kind-dependent registers of a decoded PDU2: PS is the group extension, part of the PGN. -/
theorem decodedPdu_of_pdu2 {id : BitVec 29} (h : 240 ≤ (split29 id).pf.toNat) (n : BitVec 4)
    (d : Lanes) :
    (decodedPdu id n d).pdu2 = some 1 ∧ (decodedPdu id n d).ge = some (id.extractLsb' 8 8) ∧
      (decodedPdu id n d).da = none ∧ (decodedPdu id n d).pgn = some (id.extractLsb' 8 18) := by
  have hkind : isPdu2 (split29 id).pf := decide_eq_true h
  refine ⟨congrArg some (if_pos hkind), if_pos hkind, if_pos hkind, congrArg some ?_⟩
  rw [pgnOf_of_pdu2 h, split29_rbit_dp_pf_ps]

/-- Settles O6: the two scalar reads, then the three ends of the command by FLEN and the lanes. -/
theorem frameDecodeFollowsItsRule : Obligations.FrameDecodeFollowsItsRule := by
  unfold Obligations.FrameDecodeFollowsItsRule
  refine fun s => ⟨exec_faultsAtFirstUnwritten .frameDecode s, fun id n hid hn => ?_⟩
  have hexec := execFrameDecode_eq hid hn
  refine ⟨fun hlong => ?raises, fun hn8 => ?laneFault, fun hn8 hwritten => ?decodes⟩
  case raises =>
    rw [if_pos hlong] at hexec
    exact ⟨_, hexec, raisedIn_raise .invalidFrame .frameDecode s⟩
  case laneFault =>
    rw [if_neg (Nat.not_lt.2 hn8)] at hexec
    exact firstUnwrittenLaneFaults_of_exec_eq hexec
  case decodes =>
    rw [if_neg (Nat.not_lt.2 hn8), laneOperands_ok hwritten] at hexec
    exact ⟨_, hexec, succeededIn_succeed (agreeOutside_with_pdu _ _), rfl, rfl, rfl, rfl, rfl, rfl,
      rfl, keepBelow_getElem _ _, fun h => decodedPdu_of_pdu1 h _ _,
      fun h => decodedPdu_of_pdu2 h _ _⟩

end Sys2Proof.Machine
end

section
/-! FRAME_ENCODE and PGN_PACK (40_frame_codec.md R66, R67): the identifier as a number, the end the
two commands share, and what comes before it in each. -/

namespace Sys2Proof.Machine

theorem pack29_eq_ofNat (f : IdFields) :
    pack29 f = BitVec.ofNat 29 (f.p.toNat * 2 ^ 26 + f.rbit.toNat * 2 ^ 25 + f.dp.toNat * 2 ^ 24 +
      f.pf.toNat * 2 ^ 16 + f.ps.toNat * 2 ^ 8 + f.sa.toNat) := by
  rw [← pack29_toNat, BitVec.ofNat_toNat, BitVec.setWidth_eq]

/-- The low bits of a value that fits in them are the value. -/
theorem toNat_slice_zero_of_lt {w len : Nat} {v : BitVec w} (h : v.toNat < 2 ^ len) :
    (v.extractLsb' 0 len).toNat = v.toNat := by
  rw [toNat_slice_zero, Nat.mod_eq_of_lt h]

/-- The identifier of FRAME_ENCODE, for fields that fit. -/
theorem pack29_of_fields {p r dp : BitVec 8} (pf ps sa : BitVec 8) (hp : p.toNat ≤ 7)
    (hr : r.toNat ≤ 1) (hdp : dp.toNat ≤ 1) :
    pack29 ⟨p.extractLsb' 0 3, r.extractLsb' 0 1, dp.extractLsb' 0 1, pf, ps, sa⟩ =
      BitVec.ofNat 29 (p.toNat * 2 ^ 26 + r.toNat * 2 ^ 25 + dp.toNat * 2 ^ 24 +
        pf.toNat * 2 ^ 16 + ps.toNat * 2 ^ 8 + sa.toNat) := by
  rw [pack29_eq_ofNat, toNat_slice_zero_of_lt (Nat.lt_succ_of_le hp),
    toNat_slice_zero_of_lt (Nat.lt_succ_of_le hr), toNat_slice_zero_of_lt (Nat.lt_succ_of_le hdp)]

/-- The identifier of PGN_PACK: bits 17 to 8 of the PGN are R, DP and PF. -/
theorem pack29_of_pgn {p : BitVec 8} {g : BitVec 32} (ps sa : BitVec 8) (hp : p.toNat ≤ 7)
    (hg : g.toNat ≤ 0x3FFFF) :
    pack29 ⟨p.extractLsb' 0 3, g.extractLsb' 17 1, g.extractLsb' 16 1, g.extractLsb' 8 8, ps, sa⟩ =
      BitVec.ofNat 29 (p.toNat * 2 ^ 26 + g.toNat / 2 ^ 8 * 2 ^ 16 + ps.toNat * 2 ^ 8 +
        sa.toNat) := by
  rw [pack29_eq_ofNat, toNat_slice_zero_of_lt (Nat.lt_succ_of_le hp)]
  simp only [toNat_slice]
  refine congrArg (BitVec.ofNat 29) ?_
  omega

/-- A command that ends in `frameResult` faults at the first unwritten lane below the length, and
with none missing writes the frame. -/
theorem frameResult_follows {i : Instr} {s : State} {f : IdFields} {n : BitVec 8} {id : BitVec 29}
    (hexec : exec i s = frameResult f n s) (hid : pack29 f = id) :
    FirstUnwrittenLaneFaults i .data n.toNat s ∧
      (LanesWritten .data n.toNat s →
        ∃ t, exec i s = .next t ∧ SucceededIn .frame s t ∧ t.out.frame.fid = some id ∧
          t.out.frame.flen = some (BitVec.ofNat 4 n.toNat) ∧
          ∀ k : Fin 8, t.out.frame.fdata[k] = if k.val < n.toNat then s.inp.data[k] else none) := by
  refine ⟨firstUnwrittenLaneFaults_of_exec_eq hexec, fun hwritten => ?_⟩
  rw [frameResult, laneOperands_ok hwritten, hid] at hexec
  exact ⟨_, hexec, succeededIn_succeed (agreeOutside_with_frame _ _), rfl, rfl,
    keepBelow_getElem _ _⟩

/-- Settles O7: the seven scalar reads, then the range check and the end shared with PGN_PACK. -/
theorem frameEncodeFollowsItsRule : Obligations.FrameEncodeFollowsItsRule := by
  unfold Obligations.FrameEncodeFollowsItsRule
  refine fun s => ⟨exec_faultsAtFirstUnwritten .frameEncode s, ?_⟩
  intro p r dp pf ps sa n hp hr hdp hpf hps hsa hn
  have hexec := execFrameEncode_eq hp hr hdp hpf hps hsa hn
  refine ⟨fun hbad => ?raises, fun hp7 hr1 hdp1 hn8 => ?encodes⟩
  case raises =>
    rw [if_pos hbad] at hexec
    exact ⟨_, hexec, raisedIn_raise .invalidPdu .frameEncode s⟩
  case encodes =>
    rw [if_neg (by omega)] at hexec
    exact frameResult_follows hexec (pack29_of_fields pf ps sa hp7 hr1 hdp1)

/-- Settles O8: the five scalar reads, then the two checks, on the ranges and on the choice of PS,
and the end shared with FRAME_ENCODE. -/
theorem pgnPackFollowsItsRule : Obligations.PgnPackFollowsItsRule := by
  unfold Obligations.PgnPackFollowsItsRule
  refine fun s => ⟨exec_faultsAtFirstUnwritten .pgnPack s, ?_⟩
  intro p g da sa n hp hg hda hsa hn
  have hexec := execPgnPack_eq hp hg hda hsa hn
  refine ⟨fun hbad => ⟨_, ?raises, raisedIn_raise .invalidPdu .pgnPack s⟩,
    fun ps hp7 hg18 hn8 hps => ?packs⟩
  case raises =>
    rw [hexec]
    split
    · rfl
    · next hranges =>
      rw [(pgnPackPs_eq_none g da).2 (by tauto)]
  case packs =>
    rw [if_neg (by omega), (pgnPackPs_eq_some g da ps).2 hps] at hexec
    exact frameResult_follows hexec (pack29_of_pgn ps sa hp7 hg18)

end Sys2Proof.Machine
end

section
/-! The NAME codec (41_name_codec.md R74 to R78): the result groups it writes, and its commands. -/

namespace Sys2Proof.Machine

theorem agreeOutside_with_name (f : OutFile) (v : RegCell 64) :
    OutFile.AgreeOutside .name { f with name := v } f := by
  apply agreeOutside_of_eq <;> simp

theorem agreeOutside_with_nfields (f : OutFile) (nf : NFieldsGroup) :
    OutFile.AgreeOutside .nfields { f with nfields := nf } f := by
  apply agreeOutside_of_eq <;> simp

theorem agreeOutside_with_cmp (f : OutFile) (c : RegCell 2) :
    OutFile.AgreeOutside .cmp { f with cmp := c } f := by
  apply agreeOutside_of_eq <;> simp

theorem agreeOutside_with_nbytes (f : OutFile) (b : Lanes) :
    OutFile.AgreeOutside .nbytes { f with nbytes := b } f := by
  apply agreeOutside_of_eq <;> simp

/-- NAME_DECODE on a written NAME. -/
theorem execNameDecode_eq {s : State} {n : BitVec 64} (hn : s.inp.nameA = some n) :
    exec .nameDecode s = .next (succeed { s.out with nfields := decodedName n } s) :=
  operand_some (r := .nameA) hn

/-- NAME_COMPARE on two written NAMEs. -/
theorem execNameCompare_eq {s : State} {a b : BitVec 64} (ha : s.inp.nameA = some a)
    (hb : s.inp.nameB = some b) :
    exec .nameCompare s = .next (succeed { s.out with cmp := some (nameOrder a b) } s) :=
  (operand_some (r := .nameA) ha).trans (operand_some (r := .nameB) hb)

/-- NAME_TO_BYTES on a written NAME. -/
theorem execNameToBytes_eq {s : State} {n : BitVec 64} (hn : s.inp.nameA = some n) :
    exec .nameToBytes s =
      .next (succeed { s.out with nbytes := tabulate fun i => some (nameByte n i) } s) :=
  operand_some (r := .nameA) hn

/-- Settles O9: one scalar read, and the ten slices are the definition of `nameUnpack`. -/
theorem nameDecodeFollowsItsRule : Obligations.NameDecodeFollowsItsRule := by
  unfold Obligations.NameDecodeFollowsItsRule
  exact fun s => ⟨exec_faultsAtFirstUnwritten .nameDecode s, fun n hn =>
    ⟨_, execNameDecode_eq hn, succeededIn_succeed (agreeOutside_with_nfields _ _),
      rfl, rfl, rfl, rfl, rfl, rfl, rfl, rfl, rfl, rfl⟩⟩

theorem namePack_eq_ofNat (f : NameFields) :
    namePack f = BitVec.ofNat 64 (f.aac.toNat * 2 ^ 63 + f.ig.toNat * 2 ^ 60 +
      f.vsi.toNat * 2 ^ 56 + f.vs.toNat * 2 ^ 49 + f.rsv.toNat * 2 ^ 48 + f.fn.toNat * 2 ^ 40 +
      f.fi.toNat * 2 ^ 35 + f.ecu.toNat * 2 ^ 32 + f.mfg.toNat * 2 ^ 21 + f.idn.toNat) := by
  rw [← namePack_toNat, BitVec.ofNat_toNat, BitVec.setWidth_eq]

/-- The number NAME_ENCODE packs, for fields that fit. -/
theorem namePack_of_fields {aac ig vsi vs rsv fi ecu : BitVec 8} {mfg : BitVec 16}
    {idn : BitVec 32} (fn : BitVec 8) (haac : aac.toNat ≤ 1) (hig : ig.toNat ≤ 7)
    (hvsi : vsi.toNat ≤ 15) (hvs : vs.toNat ≤ 127) (hrsv : rsv.toNat ≤ 1) (hfi : fi.toNat ≤ 31)
    (hecu : ecu.toNat ≤ 7) (hmfg : mfg.toNat ≤ 2047) (hidn : idn.toNat ≤ 0x1FFFFF) :
    namePack ⟨aac.extractLsb' 0 1, ig.extractLsb' 0 3, vsi.extractLsb' 0 4, vs.extractLsb' 0 7,
        rsv.extractLsb' 0 1, fn, fi.extractLsb' 0 5, ecu.extractLsb' 0 3, mfg.extractLsb' 0 11,
        idn.extractLsb' 0 21⟩ =
      BitVec.ofNat 64 (aac.toNat * 2 ^ 63 + ig.toNat * 2 ^ 60 + vsi.toNat * 2 ^ 56 +
        vs.toNat * 2 ^ 49 + rsv.toNat * 2 ^ 48 + fn.toNat * 2 ^ 40 + fi.toNat * 2 ^ 35 +
        ecu.toNat * 2 ^ 32 + mfg.toNat * 2 ^ 21 + idn.toNat) := by
  rw [namePack_eq_ofNat, toNat_slice_zero_of_lt (Nat.lt_succ_of_le haac),
    toNat_slice_zero_of_lt (Nat.lt_succ_of_le hig),
    toNat_slice_zero_of_lt (Nat.lt_succ_of_le hvsi),
    toNat_slice_zero_of_lt (Nat.lt_succ_of_le hvs),
    toNat_slice_zero_of_lt (Nat.lt_succ_of_le hrsv),
    toNat_slice_zero_of_lt (Nat.lt_succ_of_le hfi),
    toNat_slice_zero_of_lt (Nat.lt_succ_of_le hecu),
    toNat_slice_zero_of_lt (Nat.lt_succ_of_le hmfg),
    toNat_slice_zero_of_lt (Nat.lt_succ_of_le hidn)]

/-- Settles O10: the ten scalar reads, then the width check; in range, the packed fields as a
number. -/
theorem nameEncodeFollowsItsRule : Obligations.NameEncodeFollowsItsRule := by
  unfold Obligations.NameEncodeFollowsItsRule
  refine fun s => ⟨exec_faultsAtFirstUnwritten .nameEncode s, ?_⟩
  intro aac ig vsi vs rsv fn fi ecu mfg idn haac hig hvsi hvs hrsv hfn hfi hecu hmfg hidn
  have hexec := execNameEncode_eq haac hig hvsi hvs hrsv hfn hfi hecu hmfg hidn
  refine ⟨fun hwide => ?raises, fun haac1 hig3 hvsi4 hvs7 hrsv1 hfi5 hecu3 hmfg11 hidn21 =>
    ?encodes⟩
  case raises =>
    rw [if_pos hwide] at hexec
    exact ⟨_, hexec, raisedIn_raise .invalidName .nameEncode s⟩
  case encodes =>
    rw [if_neg (by omega)] at hexec
    exact ⟨_, hexec, succeededIn_succeed (agreeOutside_with_name _ _), congrArg some
      (namePack_of_fields fn haac1 hig3 hvsi4 hvs7 hrsv1 hfi5 hecu3 hmfg11 hidn21)⟩

theorem nameOrder_of_eq {a b : BitVec 64} (h : a.toNat = b.toNat) : nameOrder a b = 0b00 :=
  if_pos (BitVec.eq_of_toNat_eq h)

theorem nameOrder_of_ne {a b : BitVec 64} (h : a.toNat ≠ b.toNat) :
    nameOrder a b = if a.toNat < b.toNat then 0b01 else 0b10 :=
  if_neg fun hab => h (congrArg BitVec.toNat hab)

theorem nameOrder_of_lt {a b : BitVec 64} (h : a.toNat < b.toNat) : nameOrder a b = 0b01 :=
  (nameOrder_of_ne h.ne).trans (if_pos h)

theorem nameOrder_of_gt {a b : BitVec 64} (h : b.toNat < a.toNat) : nameOrder a b = 0b10 :=
  (nameOrder_of_ne h.ne').trans (if_neg h.asymm)

/-- Settles O11: two scalar reads, then one case of `nameOrder` per order of the two numbers. -/
theorem nameCompareFollowsItsRule : Obligations.NameCompareFollowsItsRule := by
  unfold Obligations.NameCompareFollowsItsRule
  exact fun s => ⟨exec_faultsAtFirstUnwritten .nameCompare s, fun a b ha hb =>
    ⟨_, execNameCompare_eq ha hb, succeededIn_succeed (agreeOutside_with_cmp _ _),
      fun h => congrArg some (nameOrder_of_eq h), fun h => congrArg some (nameOrder_of_lt h),
      fun h => congrArg some (nameOrder_of_gt h)⟩⟩

/-- Settles O12: one scalar read, and lane `k` of the result is byte `k` of the NAME. -/
theorem nameToBytesFollowsItsRule : Obligations.NameToBytesFollowsItsRule := by
  unfold Obligations.NameToBytesFollowsItsRule
  exact fun s => ⟨exec_faultsAtFirstUnwritten .nameToBytes s, fun n hn =>
    ⟨_, execNameToBytes_eq hn, succeededIn_succeed (agreeOutside_with_nbytes _ _),
      tabulate_getElem fun i => some (nameByte n i)⟩⟩

/-- The lanes read before lane `k`, then lane `k`, then the rest. -/
theorem laneOrder_eq_take_append_cons (k : Fin 8) :
    laneOrder = laneOrder.take k.val ++ k :: laneOrder.drop (k.val + 1) := by
  revert k; decide

theorem lt_of_mem_take_laneOrder {k j : Fin 8} (h : j ∈ laneOrder.take k.val) : j < k := by
  revert k j; decide

/-- A command whose scalar operands are the eight lanes of `l`, in order, faults at the first
unwritten one. -/
theorem firstUnwrittenLaneFaults_of_scalarOperands {i : Instr} {l : LaneReg}
    (hops : scalarOperands i = laneOrder.map (.lane l)) (s : State) :
    FirstUnwrittenLaneFaults i l 8 s := by
  intro k _ hbefore hnone
  refine exec_faultsAtFirstUnwritten i s ((laneOrder.take k.val).map (.lane l)) (.lane l k)
    ((laneOrder.drop (k.val + 1)).map (.lane l)) ?split (List.forall_mem_map.2 fun j hj => ?written)
    hnone
  case split =>
    rw [hops, ← List.map_cons, ← List.map_append, ← laneOrder_eq_take_append_cons]
  case written => exact hbefore j (lt_of_mem_take_laneOrder hj)

/-- Byte `k` of the assembled NAME is the `k`-th of the bytes (30_encoding.md R61). -/
theorem nameByte_nameFromBytes (b : Fin 8 → Byte) (k : Fin 8) :
    nameByte (nameFromBytes (b 0) (b 1) (b 2) (b 3) (b 4) (b 5) (b 6) (b 7)) k = b k := by
  apply BitVec.eq_of_toNat_eq
  rw [nameByte_toNat, nameFromBytes_toNat]
  fin_cases k <;> simp only [Fin.reduceFinMk] <;> omega

/-- Settles O13: the eight lane reads, then the NAME whose bytes are the lanes. -/
theorem nameFromBytesFollowsItsRule : Obligations.NameFromBytesFollowsItsRule := by
  unfold Obligations.NameFromBytesFollowsItsRule
  refine fun s => ⟨firstUnwrittenLaneFaults_of_scalarOperands rfl s, fun hwritten => ?_⟩
  choose b hb using fun k : Fin 8 => Option.isSome_iff_exists.1 (hwritten k k.isLt)
  exact ⟨_, execNameFromBytes_eq hb, succeededIn_succeed (agreeOutside_with_name _ _), _, rfl,
    fun k => (hb k).trans (congrArg some (nameByte_nameFromBytes b k).symm)⟩

end Sys2Proof.Machine
end

section
/-! The words that select no command (30_encoding.md R48, R51), and what they do
(60_exceptions.md R86). -/

namespace Sys2Proof

/-- The two fields of every command's word. -/
theorem commandWord : ∀ i : Instr, Laws.CommandWord.Statement i
  | .frameDecode => Laws.CommandWord.frameDecode
  | .frameEncode => Laws.CommandWord.frameEncode
  | .pgnPack => Laws.CommandWord.pgnPack
  | .nameDecode => Laws.CommandWord.nameDecode
  | .nameEncode => Laws.CommandWord.nameEncode
  | .nameCompare => Laws.CommandWord.nameCompare
  | .nameToBytes => Laws.CommandWord.nameToBytes
  | .nameFromBytes => Laws.CommandWord.nameFromBytes

/-- A word that decodes is the word of a command, whose `Z` is 0 and whose `OP` is 1 to 8. -/
theorem decode_toOption_of_illegal {w : BitVec 8}
    (h : wordZ w ≠ 0 ∨ wordOp w = 0 ∨ 9 ≤ (wordOp w).toNat) : (decode w).toOption = none := by
  cases hd : decode w with
  | error _ => rfl
  | ok i =>
    obtain ⟨hz, hop, hop_pos, hop_le⟩ := commandWord i
    rw [encode_of_decode hd] at hz hop
    rw [hz, hop] at h
    obtain h | h | h := h
    · exact absurd rfl h
    · simp [h] at hop_pos
    · omega

end Sys2Proof

namespace Sys2Proof.Machine

/-- Settles O5: none of these words decodes, and an error commit in no command writes STATUS
only. -/
theorem illegalWordWritesStatusOnly : Obligations.IllegalWordWritesStatusOnly := by
  unfold Obligations.IllegalWordWritesStatusOnly
  exact fun s w h => ⟨_, act_wr_cmd_of_illegal (decode_toOption_of_illegal h) s,
    committed_raise .illegalCommand none s, rfl, rfl, rfl, rfl⟩

end Sys2Proof.Machine
end

section
/-! The code a command leaves in `STATUS.ERR` (60_exceptions.md R83 to R85, R89, R90): which error
each command can raise, and exactly when it does. -/

namespace Sys2Proof.Machine

theorem err_raise (e : ErrorCause) (i : Option Instr) (s : State) :
    (raise e i s).status.extractLsb' 0 3 = e.code := statusErr_statusCommit _ _

theorem err_succeed (o : OutFile) (s : State) : (succeed o s).status.extractLsb' 0 3 = 0 :=
  statusErr_statusCommit _ _

theorem ErrorCause.code_ne_zero (e : ErrorCause) : e.code ≠ 0 := by
  cases e <;> decide

theorem ErrorCause.code_injective : Function.Injective ErrorCause.code := by
  intro e e' h
  cases e <;> cases e' <;> revert h <;> decide

/-- The one error a command can raise, if any (R89). -/
def errorOf : Instr → Option ErrorCause
  | .frameDecode => some .invalidFrame
  | .frameEncode => some .invalidPdu
  | .pgnPack => some .invalidPdu
  | .nameEncode => some .invalidName
  | .nameDecode => none
  | .nameCompare => none
  | .nameToBytes => none
  | .nameFromBytes => none

/-- A command leaves the code of success or that of its one error. -/
theorem exec_err {i : Instr} {s t : State} (h : exec i s = .next t) :
    t.status.extractLsb' 0 3 = 0 ∨
      ∃ e, errorOf i = some e ∧ t.status.extractLsb' 0 3 = e.code := by
  cases i with
  | frameDecode =>
    obtain ⟨_, _, -, -, ⟨-, rfl⟩ | ⟨-, -, rfl⟩⟩ := execFrameDecode_next h
    · exact .inr ⟨_, rfl, err_raise _ _ _⟩
    · exact .inl (err_succeed _ _)
  | frameEncode =>
    obtain ⟨_, _, _, _, _, _, _, -, -, -, -, -, -, -, ⟨-, rfl⟩ | ⟨-, -, -, -, h⟩⟩ :=
      execFrameEncode_next h
    · exact .inr ⟨_, rfl, err_raise _ _ _⟩
    · obtain ⟨-, rfl⟩ := frameResult_next h
      exact .inl (err_succeed _ _)
  | pgnPack =>
    obtain ⟨_, _, _, _, _, -, -, -, -, -, ⟨-, rfl⟩ | ⟨-, -, -, _, -, h⟩⟩ := execPgnPack_next h
    · exact .inr ⟨_, rfl, err_raise _ _ _⟩
    · obtain ⟨-, rfl⟩ := frameResult_next h
      exact .inl (err_succeed _ _)
  | nameDecode =>
    obtain ⟨_, -, rfl⟩ := execNameDecode_next h
    exact .inl (err_succeed _ _)
  | nameEncode =>
    obtain rfl | ⟨_, rfl⟩ := execNameEncode_next h
    · exact .inr ⟨_, rfl, err_raise _ _ _⟩
    · exact .inl (err_succeed _ _)
  | nameCompare =>
    obtain ⟨_, _, -, -, rfl⟩ := execNameCompare_next h
    exact .inl (err_succeed _ _)
  | nameToBytes =>
    obtain ⟨_, -, rfl⟩ := execNameToBytes_next h
    exact .inl (err_succeed _ _)
  | nameFromBytes =>
    obtain ⟨_, rfl⟩ := execNameFromBytes_next h
    exact .inl (err_succeed _ _)

/-- A command that left the code of an error can raise that error. -/
theorem errorOf_of_err {i : Instr} {s t : State} {e : ErrorCause} (h : exec i s = .next t)
    (herr : t.status.extractLsb' 0 3 = e.code) : errorOf i = some e := by
  obtain h0 | ⟨e', he', hcode⟩ := exec_err h
  · exact absurd (herr.symm.trans h0) e.code_ne_zero
  · rwa [ErrorCause.code_injective (herr.symm.trans hcode)]

/-- What raises an error exactly under the condition `P`, and succeeds otherwise, leaves that
error's code exactly under `P`. -/
theorem err_eq_code_iff {P : Prop} {e : ErrorCause} {i : Option Instr} {s t : State}
    (h : (P ∧ t = raise e i s) ∨ (¬ P ∧ ∃ o, t = succeed o s)) :
    t.status.extractLsb' 0 3 = e.code ↔ P := by
  obtain ⟨hP, rfl⟩ | ⟨hP, o, rfl⟩ := h
  · exact iff_of_true (err_raise e i s) hP
  · exact iff_of_false (fun herr => e.code_ne_zero (herr.symm.trans (err_succeed o s))) hP

/-- Where the first unwritten operand would fault, a next state shows that all are written. -/
theorem FaultsAtFirstUnwritten.written_of_next {ops : List InReg} {s t : State}
    (h : FaultsAtFirstUnwritten ops s (.next t)) : ∀ q ∈ ops, (s.inp.get q).isSome := by
  induction ops with
  | nil => exact fun _ hq => absurd hq List.not_mem_nil
  | cons r ops ih =>
    have hr : (s.inp.get r).isSome := by
      by_contra hr
      cases h [] r ops rfl (fun _ hq => absurd hq List.not_mem_nil)
        (Option.not_isSome_iff_eq_none.1 hr)
    have htail : FaultsAtFirstUnwritten ops s (.next t) := fun before q after hsplit hbefore =>
      h (r :: before) q after (congrArg (r :: ·) hsplit) (List.forall_mem_cons.2 ⟨hr, hbefore⟩)
    exact List.forall_mem_cons.2 ⟨hr, ih htail⟩

/-- A command that answers a next state had all its scalar operands. -/
theorem scalarOperands_written_of_next {i : Instr} {s t : State} (h : exec i s = .next t) :
    ∀ q ∈ scalarOperands i, (s.inp.get q).isSome :=
  FaultsAtFirstUnwritten.written_of_next (h ▸ exec_faultsAtFirstUnwritten i s)

theorem frameEncode_err_eq_invalidPdu_iff {s t : State} {p r dp n : BitVec 8}
    (hp : s.inp.prio = some p) (hr : s.inp.rbit = some r) (hdp : s.inp.dp = some dp)
    (hn : s.inp.len = some n) (h : exec .frameEncode s = .next t) :
    t.status.extractLsb' 0 3 = ErrorCause.invalidPdu.code ↔
      7 < p.toNat ∨ 1 < r.toNat ∨ 1 < dp.toNat ∨ 8 < n.toNat := by
  obtain ⟨p', r', dp', _, _, _, n', hp', hr', hdp', -, -, -, hn', hends⟩ := execFrameEncode_next h
  obtain rfl := Option.some.inj (hp'.symm.trans hp)
  obtain rfl := Option.some.inj (hr'.symm.trans hr)
  obtain rfl := Option.some.inj (hdp'.symm.trans hdp)
  obtain rfl := Option.some.inj (hn'.symm.trans hn)
  refine err_eq_code_iff (hends.imp_right fun ⟨hp7, hr1, hdp1, hn8, hframe⟩ => ?_)
  obtain ⟨-, hsucceed⟩ := frameResult_next hframe
  exact ⟨by omega, _, hsucceed⟩

theorem pgnPack_err_eq_invalidPdu_iff {s t : State} {p da n : BitVec 8} {g : BitVec 32}
    (hp : s.inp.prio = some p) (hg : s.inp.pgn = some g) (hda : s.inp.da = some da)
    (hn : s.inp.len = some n) (h : exec .pgnPack s = .next t) :
    t.status.extractLsb' 0 3 = ErrorCause.invalidPdu.code ↔
      7 < p.toNat ∨ 0x3FFFF < g.toNat ∨ 8 < n.toNat ∨ pgnPackPs g da = none := by
  obtain ⟨p', g', da', _, n', hp', hg', hda', -, hn', hends⟩ := execPgnPack_next h
  obtain rfl := Option.some.inj (hp'.symm.trans hp)
  obtain rfl := Option.some.inj (hg'.symm.trans hg)
  obtain rfl := Option.some.inj (hda'.symm.trans hda)
  obtain rfl := Option.some.inj (hn'.symm.trans hn)
  refine err_eq_code_iff (hends.imp_right fun ⟨hp7, hg18, hn8, ps, hps, hframe⟩ => ?_)
  obtain ⟨-, hsucceed⟩ := frameResult_next hframe
  exact ⟨by simp [hps, hp7, hg18, hn8], _, hsucceed⟩

theorem nameEncode_err_eq_invalidName_iff {s t : State} {aac ig vsi vs rsv fi ecu : BitVec 8}
    {mfg : BitVec 16} {idn : BitVec 32} (haac : s.inp.aac = some aac) (hig : s.inp.ig = some ig)
    (hvsi : s.inp.vsi = some vsi) (hvs : s.inp.vs = some vs) (hrsv : s.inp.nrsv = some rsv)
    (hfi : s.inp.finst = some fi) (hecu : s.inp.ecui = some ecu) (hmfg : s.inp.mfg = some mfg)
    (hidn : s.inp.idn = some idn) (h : exec .nameEncode s = .next t) :
    t.status.extractLsb' 0 3 = ErrorCause.invalidName.code ↔
      1 < aac.toNat ∨ 7 < ig.toNat ∨ 15 < vsi.toNat ∨ 127 < vs.toNat ∨ 1 < rsv.toNat ∨
        31 < fi.toNat ∨ 7 < ecu.toNat ∨ 2047 < mfg.toNat ∨ 0x1FFFFF < idn.toNat := by
  obtain ⟨fn, hfn⟩ :=
    Option.isSome_iff_exists.1 (scalarOperands_written_of_next h .func (by decide))
  rw [execNameEncode_eq haac hig hvsi hvs hrsv hfn hfi hecu hmfg hidn] at h
  refine err_eq_code_iff (i := some .nameEncode) (s := s) ?_
  split at h
  · next hwide => cases h; exact .inl ⟨hwide, rfl⟩
  · next hfits => cases h; exact .inr ⟨hfits, _, rfl⟩

theorem frameDecode_err_eq_invalidFrame_iff {s t : State} {n : BitVec 4}
    (hn : s.inp.flen = some n) (h : exec .frameDecode s = .next t) :
    t.status.extractLsb' 0 3 = ErrorCause.invalidFrame.code ↔ 8 < n.toNat := by
  obtain ⟨_, n', -, hn', hends⟩ := execFrameDecode_next h
  obtain rfl := Option.some.inj (hn'.symm.trans hn)
  exact err_eq_code_iff (hends.imp_right fun ⟨hn8, _, hsucceed⟩ =>
    ⟨Nat.not_lt.2 hn8, _, hsucceed⟩)

theorem eq_of_errorOf_invalidPdu {i : Instr} (h : errorOf i = some .invalidPdu) :
    i = .frameEncode ∨ i = .pgnPack := by
  cases i <;> revert h <;> decide

theorem eq_of_errorOf_invalidName {i : Instr} (h : errorOf i = some .invalidName) :
    i = .nameEncode := by
  cases i <;> revert h <;> decide

theorem eq_of_errorOf_invalidFrame {i : Instr} (h : errorOf i = some .invalidFrame) :
    i = .frameDecode := by
  cases i <;> revert h <;> decide

/-- Settles O14: the causes in each of the two encoders, and no other command has this error. -/
theorem invalidPduCauses : Obligations.InvalidPduCauses := by
  unfold Obligations.InvalidPduCauses
  refine ⟨fun s t p r dp n => frameEncode_err_eq_invalidPdu_iff,
    fun s t p g da n hp hg hda hn h => ?_,
    fun i s t h herr => eq_of_errorOf_invalidPdu (errorOf_of_err h herr)⟩
  have hiff := pgnPack_err_eq_invalidPdu_iff hp hg hda hn h
  rwa [pgnPackPs_eq_none] at hiff

/-- Settles O15: the width check of NAME_ENCODE, and no other command has this error. -/
theorem invalidNameCause : Obligations.InvalidNameCause := by
  unfold Obligations.InvalidNameCause
  exact ⟨fun s t aac ig vsi vs rsv fi ecu mfg idn => nameEncode_err_eq_invalidName_iff,
    fun i s t h herr => eq_of_errorOf_invalidName (errorOf_of_err h herr)⟩

/-- Settles O16: the length check of FRAME_DECODE, and no other command has this error. -/
theorem invalidFrameCause : Obligations.InvalidFrameCause := by
  unfold Obligations.InvalidFrameCause
  exact ⟨fun s t n => frameDecode_err_eq_invalidFrame_iff,
    fun i s t h herr => eq_of_errorOf_invalidFrame (errorOf_of_err h herr)⟩

/-- Settles O17: a command leaves 0 or the code of its one error, and an illegal word leaves 4. -/
theorem errorCodesByCommand : Obligations.ErrorCodesByCommand := by
  unfold Obligations.ErrorCodesByCommand
  intro s t w h
  cases hd : decode w with
  | ok i =>
    rw [act_wr_cmd_of_ok hd] at h
    have herr := exec_err h
    cases i <;> simpa [errorOf, ErrorCause.code] using herr
  | error _ =>
    rw [act_wr_cmd_of_illegal (by rw [hd]; rfl)] at h
    cases h
    exact err_raise .illegalCommand none s

/-- Settles O18: a code other than 0 rules the success commit out, and the error commit is R90's. -/
theorem errorCommitClearsTheGroup : Obligations.ErrorCommitClearsTheGroup := by
  unfold Obligations.ErrorCommitClearsTheGroup
  refine ⟨fun i s t h herr => ?command, fun s t w hw h => ?illegalWord⟩
  case command =>
    obtain ⟨e, -, rfl⟩ | ⟨o, -, rfl⟩ := exec_cases h
    · rw [err_raise]
      exact raisedIn_raise e i s
    · exact absurd (err_succeed o s) herr
  case illegalWord =>
    rw [act_wr_cmd_of_illegal hw] at h
    cases h
    exact ⟨committed_raise .illegalCommand none s, rfl, rfl⟩

end Sys2Proof.Machine
end

section
/-! The refused actions (60_exceptions.md R93): no command is refused, nor any action but three. -/

namespace Sys2Proof.Machine

/-- The outcome `res` is a next state or a fault. -/
def NotRefused (res : Result) : Prop := ∀ f, res ≠ .refused f

theorem NotRefused.next (s : State) : NotRefused (.next s) := nofun

theorem NotRefused.fault (r : Fault) : NotRefused (.fault r) := nofun

theorem NotRefused.operand {r : InReg} {s : State} {k : BitVec r.width → Result}
    (hk : ∀ v, NotRefused (k v)) : NotRefused (operand r s k) := by
  cases hr : s.inp.get r with
  | none => rw [operand_none hr]; exact .fault _
  | some v => rw [operand_some hr]; exact hk v

theorem NotRefused.laneOperands {l : LaneReg} {n : Nat} {s : State} {k : Lanes → Result}
    (hk : ∀ d, NotRefused (k d)) : NotRefused (laneOperands l n s k) := by
  unfold Machine.laneOperands
  split
  · exact .fault _
  · exact hk _

theorem frameResult_notRefused (f : IdFields) (n : BitVec 8) (s : State) :
    NotRefused (frameResult f n s) := .laneOperands fun _ => .next _

/-- Every command reads its operands and then commits a success or an error. -/
theorem exec_notRefused (i : Instr) (s : State) : NotRefused (exec i s) := by
  cases i with
  | frameDecode =>
    iterate 2 refine .operand fun _ => ?_
    split
    · exact .next _
    · exact .laneOperands fun _ => .next _
  | frameEncode =>
    iterate 7 refine .operand fun _ => ?_
    split
    · exact .next _
    · exact frameResult_notRefused _ _ _
  | pgnPack =>
    iterate 5 refine .operand fun _ => ?_
    split
    · exact .next _
    · split
      · exact .next _
      · exact frameResult_notRefused _ _ _
  | nameDecode => exact .operand fun _ => .next _
  | nameEncode =>
    iterate 10 refine .operand fun _ => ?_
    split
    · exact .next _
    · exact .next _
  | nameCompare =>
    iterate 2 refine .operand fun _ => ?_
    exact .next _
  | nameToBytes => exact .operand fun _ => .next _
  | nameFromBytes =>
    iterate 8 refine .operand fun _ => ?_
    exact .next _

theorem act_wr_cmd_notRefused (w : BitVec 8) (s : State) : NotRefused (act (.wr .cmd w) s) := by
  cases hd : decode w with
  | ok i => rw [act_wr_cmd_of_ok hd]; exact exec_notRefused i s
  | error _ => rw [act_wr_cmd_of_illegal (by rw [hd]; rfl)]; exact .next _

theorem act_rd_cmd (s : State) : act (.rd .cmd) s = .refused .readOfWriteOnly := rfl

theorem act_rd_notRefused {r : Reg} (hr : r ≠ .cmd) (s : State) : NotRefused (act (.rd r) s) := by
  rw [act, hostRead, if_neg hr]
  split
  · exact .fault _
  · exact .next _

/-- The refused actions, each with its reason. -/
theorem act_refused {a : Action} {s : State} {f : Refusal} (h : act a s = .refused f) :
    (∃ q v, a = .wr (.out q) v ∧ f = .writeToReadOnly (.out q)) ∨
      (∃ v, a = .wr .status v ∧ f = .writeToReadOnly .status) ∨
      (a = .rd .cmd ∧ f = .readOfWriteOnly) := by
  cases a with
  | wr r v =>
    cases r with
    | inp q => exact absurd h (NotRefused.next _ f)
    | out q => cases h; exact .inl ⟨q, v, rfl, rfl⟩
    | status => cases h; exact .inr (.inl ⟨v, rfl, rfl⟩)
    | cmd => exact absurd h (act_wr_cmd_notRefused v s f)
  | rd r =>
    by_cases hr : r = .cmd
    · subst hr; cases h; exact .inr (.inr ⟨rfl, rfl⟩)
    · exact absurd h (act_rd_notRefused hr s f)
  | reset => exact absurd h (NotRefused.next _ f)

/-- Settles O34: the three kinds of action are refused as R93 names them, and no other is. -/
theorem refusedActions : Obligations.RefusedActions := by
  unfold Obligations.RefusedActions
  refine fun s a f => ⟨act_refused, ?_⟩
  rintro (⟨q, v, rfl, rfl⟩ | ⟨v, rfl, rfl⟩ | ⟨rfl, rfl⟩)
  · exact act_wr_out s q v
  · exact act_wr_status s v
  · exact act_rd_cmd s

end Sys2Proof.Machine
end

section
/-! The host's actions: what a read answers (20_memory.md R33), and everything that an action which
answers a next state can have done (60_exceptions.md R82). -/

namespace Sys2Proof.Machine

theorem act_rd_of_content {r : Reg} {s : State} {v : BitVec r.width} (h : content s r = some v) :
    act (.rd r) s = .next { s with observed := s.observed ++ [{ reg := r, value := v }] } := by
  have hr : r ≠ .cmd := by rintro rfl; cases h
  rw [act, hostRead, if_neg hr, h]

theorem act_rd_of_no_content {r : Reg} {s : State} (hr : r ≠ .cmd) (h : content s r = none) :
    act (.rd r) s = .fault (.unwrittenRead r) := by
  rw [act, hostRead, if_neg hr, h]

theorem act_reset (s : State) : act .reset s = .next (resetEvent s) := rfl

theorem decode_toOption_of_error {w : BitVec 8} {e : IllegalWord} (h : decode w = .error e) :
    (decode w).toOption = none := by
  rw [h]; rfl

/-- An action that answers a next state: a write to IN, a command, an illegal word, a read of a
register that holds a value, or the reset event. -/
theorem act_next {a : Action} {s t : State} (h : act a s = .next t) :
    (∃ q v, a = .wr (.inp q) v ∧ t = { s with inp := s.inp.set q v }) ∨
      (∃ w i, a = .wr .cmd w ∧ decode w = .ok i ∧ exec i s = .next t) ∨
      (∃ w, a = .wr .cmd w ∧ (decode w).toOption = none ∧ t = raise .illegalCommand none s) ∨
      (∃ r v, a = .rd r ∧ content s r = some v ∧
        t = { s with observed := s.observed ++ [{ reg := r, value := v }] }) ∨
      (a = .reset ∧ t = resetEvent s) := by
  cases a with
  | wr r v =>
    cases r with
    | inp q => cases h; exact .inl ⟨q, v, rfl, rfl⟩
    | out q => cases h
    | status => cases h
    | cmd =>
      cases hd : decode v with
      | ok i =>
        rw [act_wr_cmd_of_ok hd] at h
        exact .inr (.inl ⟨v, i, rfl, hd, h⟩)
      | error _ =>
        have hd := decode_toOption_of_error hd
        rw [act_wr_cmd_of_illegal hd] at h
        cases h
        exact .inr (.inr (.inl ⟨v, rfl, hd, rfl⟩))
  | rd r =>
    by_cases hr : r = .cmd
    · subst hr; cases h
    · cases hc : content s r with
      | none => rw [act_rd_of_no_content hr hc] at h; cases h
      | some v =>
        rw [act_rd_of_content hc] at h
        cases h
        exact .inr (.inr (.inr (.inl ⟨r, v, rfl, hc, rfl⟩)))
  | reset => cases h; exact .inr (.inr (.inr (.inr ⟨rfl, rfl⟩)))

end Sys2Proof.Machine
end

section
/-! The invariant of a run (10_state.md R17, R19). Its part about OUT says that each result group is
whole or empty: every commit keeps that, a clear trivially and a success group by group. Its part
about STATUS follows from the one way in which STATUS is written. -/

namespace Sys2Proof.Machine

/-- The part of `State.Inv` that speaks of OUT alone. -/
structure OutFile.Coherent (f : OutFile) : Prop where
  frame : f.frame.Coherent
  pdu : f.pdu.Coherent
  nfields : f.nfields.Coherent
  cmp : f.cmp ≠ some 0b11
  nbytes : LanesBelow f.nbytes 0 ∨ LanesBelow f.nbytes 8

theorem State.Inv.out_coherent {s : State} (h : s.Inv) : s.out.Coherent :=
  ⟨h.frame, h.pdu, h.nfields, h.cmp, h.nbytes⟩

theorem lanesBelow_emptyLanes : LanesBelow emptyLanes 0 := fun i => by
  rw [emptyLanes_getElem, decide_eq_false (Nat.not_lt_zero _), Option.isSome_none]

theorem lanesBelow_tabulate (f : Fin 8 → Byte) : LanesBelow (tabulate fun i => some (f i)) 8 :=
  fun i => by rw [tabulate_getElem, decide_eq_true i.isLt, Option.isSome_some]

theorem OutFile.coherent_empty : OutFile.empty.Coherent :=
  ⟨.inl rfl, .inl rfl, .inl rfl, nofun, .inl lanesBelow_emptyLanes⟩

/-- Clearing a group empties it and leaves the others. -/
theorem OutFile.Coherent.clear {f : OutFile} (h : f.Coherent) (g : Group) :
    (f.clear g).Coherent := by
  cases g with
  | frame => exact { h with frame := .inl rfl }
  | pdu => exact { h with pdu := .inl rfl }
  | name => exact { h with }
  | nfields => exact { h with nfields := .inl rfl }
  | cmp => exact { h with cmp := nofun }
  | nbytes => exact { h with nbytes := .inl lanesBelow_emptyLanes }

/-- The error commit leaves each result group whole or empty. -/
theorem OutFile.Coherent.raise {s : State} (h : s.out.Coherent) (e : ErrorCause) (i : Instr) :
    (raise e (some i) s).out.Coherent := h.clear (resultGroup i)

/-- A decoded PDU is whole: the lanes below its length, and PDU2, DA, GE and PGN by its kind. -/
theorem decodedPdu_coherent (id : BitVec 29) {n : BitVec 4} {d : Lanes} (hn : n.toNat ≤ 8)
    (hd : LanesBelow d n.toNat) : (decodedPdu id n d).Coherent := by
  refine .inr ⟨_, _, _, _, _, _, _, rfl, rfl, rfl, rfl, rfl, rfl, rfl, hn, hd,
    fun hpdu1 => ?_, fun hpdu2 => ?_⟩
  · obtain ⟨hkind, hda, hge, -⟩ := decodedPdu_of_pdu1 hpdu1 n d
    exact ⟨hkind, hda, hge, congrArg some (pgnOf_of_pdu1 hpdu1 _ _ _)⟩
  · obtain ⟨hkind, hge, hda, -⟩ := decodedPdu_of_pdu2 hpdu2 n d
    exact ⟨hkind, hge, hda, congrArg some (pgnOf_of_pdu2 hpdu2 _ _ _)⟩

theorem nameOrder_ne_three (a b : BitVec 64) : nameOrder a b ≠ 0b11 := by
  unfold nameOrder
  split
  · decide
  · split <;> decide

/-- The frame that FRAME_ENCODE and PGN_PACK leave is whole. -/
theorem frameResult_coherent {f : IdFields} {n : BitVec 8} {s t : State} (hs : s.out.Coherent)
    (hn : n.toNat ≤ 8) (h : frameResult f n s = .next t) : t.out.Coherent := by
  obtain ⟨hwritten, rfl⟩ := frameResult_next h
  have hlen : (n.extractLsb' 0 4).toNat = n.toNat := toNat_slice_zero_of_lt (by omega)
  refine { hs with frame := .inr ⟨_, _, rfl, rfl, ?_, ?_⟩ }
  · rwa [hlen]
  · rw [hlen]
    exact keepBelow_isSome hwritten

/-- Every command leaves each result group whole or empty. -/
theorem exec_coherent {i : Instr} {s t : State} (hs : s.out.Coherent) (h : exec i s = .next t) :
    t.out.Coherent := by
  cases i with
  | frameDecode =>
    obtain ⟨_, _, -, -, ⟨-, rfl⟩ | ⟨hn, hwritten, rfl⟩⟩ := execFrameDecode_next h
    · exact hs.raise _ _
    · exact { hs with pdu := decodedPdu_coherent _ hn (keepBelow_isSome hwritten) }
  | frameEncode =>
    obtain ⟨_, _, _, _, _, _, _, -, -, -, -, -, -, -, ⟨-, rfl⟩ | ⟨-, -, -, hn, h⟩⟩ :=
      execFrameEncode_next h
    · exact hs.raise _ _
    · exact frameResult_coherent hs hn h
  | pgnPack =>
    obtain ⟨_, _, _, _, _, -, -, -, -, -, ⟨-, rfl⟩ | ⟨-, -, hn, _, -, h⟩⟩ := execPgnPack_next h
    · exact hs.raise _ _
    · exact frameResult_coherent hs hn h
  | nameDecode =>
    obtain ⟨_, -, rfl⟩ := execNameDecode_next h
    exact { hs with nfields := .inr ⟨rfl, rfl, rfl, rfl, rfl, rfl, rfl, rfl, rfl, rfl⟩ }
  | nameEncode =>
    obtain rfl | ⟨_, rfl⟩ := execNameEncode_next h
    · exact hs.raise _ _
    · exact { hs with }
  | nameCompare =>
    obtain ⟨a, b, -, -, rfl⟩ := execNameCompare_next h
    exact { hs with cmp := fun hcmp => nameOrder_ne_three a b (Option.some.inj hcmp) }
  | nameToBytes =>
    obtain ⟨n, -, rfl⟩ := execNameToBytes_next h
    exact { hs with nbytes := .inr (lanesBelow_tabulate (nameByte n)) }
  | nameFromBytes =>
    obtain ⟨_, rfl⟩ := execNameFromBytes_next h
    exact { hs with }

theorem ErrorCause.code_le (e : ErrorCause) : e.code.toNat ≤ 4 := by
  cases e <;> decide

/-- A command writes STATUS by one commit, of a code of at most 4. -/
theorem exec_status {i : Instr} {s t : State} (h : exec i s = .next t) :
    ∃ c : BitVec 3, c.toNat ≤ 4 ∧ t.status = statusCommit c s.status := by
  obtain ⟨e, -, rfl⟩ | ⟨o, -, rfl⟩ := exec_cases h
  · exact ⟨_, e.code_le, rfl⟩
  · exact ⟨0, by decide, rfl⟩

/-- A commit of a legal code over a coherent OUT keeps the invariant. -/
theorem State.Inv.of_commit {s t : State} {c : BitVec 3} (hs : s.Inv) (hout : t.out.Coherent)
    (hc : c.toNat ≤ 4) (hst : t.status = statusCommit c s.status) : t.Inv where
  reserved := by rw [hst, statusReserved_statusCommit, hs.reserved]
  err := by rwa [hst, statusErr_statusCommit]
  unused := fun hv => by
    rw [hst, statusValid_statusCommit] at hv
    exact absurd hv (by decide)
  frame := hout.frame
  pdu := hout.pdu
  nfields := hout.nfields
  cmp := hout.cmp
  nbytes := hout.nbytes

/-- STATUS 0 and an empty OUT satisfy the invariant, whatever the rest is. -/
theorem State.inv_of_empty {s : State} (hout : s.out = .empty) (hst : s.status = 0) : s.Inv := by
  obtain ⟨hframe, hpdu, hnfields, hcmp, hnbytes⟩ := OutFile.coherent_empty
  rw [← hout] at hframe hpdu hnfields hcmp hnbytes
  refine ⟨?_, ?_, fun _ => ⟨?_, hout⟩, hframe, hpdu, hnfields, hcmp, hnbytes⟩
  all_goals rw [hst]; decide

/-- The invariant speaks of OUT and STATUS only. -/
theorem State.Inv.congr {s t : State} (hs : s.Inv) (hout : t.out = s.out)
    (hst : t.status = s.status) : t.Inv := by
  obtain ⟨hreserved, herr, hunused, hframe, hpdu, hnfields, hcmp, hnbytes⟩ := hs
  rw [← hout] at hunused hframe hpdu hnfields hcmp hnbytes
  rw [← hst] at hreserved herr hunused
  exact ⟨hreserved, herr, hunused, hframe, hpdu, hnfields, hcmp, hnbytes⟩

/-- Every host action keeps the invariant. -/
theorem act_keeps_inv {a : Action} {s t : State} (hs : s.Inv) (h : act a s = .next t) : t.Inv := by
  obtain ⟨_, _, -, rfl⟩ | ⟨_, _, -, -, h⟩ | ⟨_, -, -, rfl⟩ | ⟨_, _, -, -, rfl⟩ | ⟨-, rfl⟩ :=
    act_next h
  · exact hs.congr rfl rfl
  · obtain ⟨c, hc, hst⟩ := exec_status h
    exact hs.of_commit (exec_coherent hs.out_coherent h) hc hst
  · exact hs.of_commit hs.out_coherent (ErrorCause.code_le .illegalCommand) rfl
  · exact hs.congr rfl rfl
  · exact State.inv_of_empty rfl rfl

/-- Settles O45: a step is the next action on a state with the same OUT and STATUS, or no change. -/
theorem stepKeepsStateInv : Obligations.StepKeepsStateInv := by
  unfold Obligations.StepKeepsStateInv
  intro s t hs h
  cases hp : s.pending with
  | nil => rw [step_nil s hp] at h; cases h; exact hs
  | cons a rest =>
    rw [step_cons s a rest hp] at h
    have hrest : State.Inv { s with pending := rest } := hs.congr rfl rfl
    exact act_keeps_inv hrest h

/-- Settles O46: OUT is empty and STATUS is 0 after reset. -/
theorem resetStateSatisfiesInv : Obligations.ResetStateSatisfiesInv :=
  State.inv_of_empty State.reset_out State.reset_status

end Sys2Proof.Machine
end

section
/-! The frame of every command (10_state.md R15, R17, R19), and the round trips of the frame codec
(40_frame_codec.md R68 to R71). -/

namespace Sys2Proof.Machine

/-- A command commits a code and changes its own result group only. -/
theorem exec_committed_onlyGroup {i : Instr} {s t : State} (h : exec i s = .next t) :
    (∃ c, Committed c s t) ∧ OnlyGroup (resultGroup i) s t := by
  obtain ⟨e, -, rfl⟩ | ⟨o, ho, rfl⟩ := exec_cases h
  · obtain ⟨hcommit, honly, -⟩ := raisedIn_raise e i s
    exact ⟨⟨_, hcommit⟩, honly⟩
  · obtain ⟨hcommit, honly⟩ := succeededIn_succeed ho
    exact ⟨⟨_, hcommit⟩, honly⟩

/-- Settles O19: the group named for each command is its `resultGroup`. -/
theorem commandFrame : Obligations.CommandFrame := by
  unfold Obligations.CommandFrame
  intro i s t h
  obtain ⟨⟨_, -, hvalid, hreserved⟩, honly⟩ := exec_committed_onlyGroup h
  refine ⟨?_, hvalid, hreserved⟩
  cases i <;> exact honly

/-- FRAME_DECODE with all it reads written, and a legal length. -/
theorem execFrameDecode_of_written {s : State} {id : BitVec 29} {n : BitVec 4}
    (hid : s.inp.fid = some id) (hn : s.inp.flen = some n) (hn8 : n.toNat ≤ 8)
    (hwritten : LanesWritten .fdata n.toNat s) :
    exec .frameDecode s = .next (succeed
      { s.out with pdu := decodedPdu id n (keepBelow s.inp.fdata n.toNat) } s) := by
  rw [execFrameDecode_eq hid hn, if_neg (Nat.not_lt.2 hn8), laneOperands_ok hwritten]
  rfl

/-- Settles O20: with a legal length the command ends in its success commit. -/
theorem frameDecodeIsTotal : Obligations.FrameDecodeIsTotal := by
  unfold Obligations.FrameDecodeIsTotal
  exact fun s id n hid hn hn8 hwritten =>
    ⟨_, execFrameDecode_of_written hid hn hn8 hwritten, err_succeed _ _⟩

/-- What raises an error leaves a code other than 0. -/
theorem not_raise_of_err_eq_zero {e : ErrorCause} {i : Option Instr} {s t : State}
    (herr : t.status.extractLsb' 0 3 = 0) : t ≠ raise e i s := by
  rintro rfl
  exact e.code_ne_zero ((err_raise e i s).symm.trans herr)

/-- The lanes below a length that a copy below that length holds. -/
theorem agreeBelow_of_keepBelow {n : Nat} {a b : Lanes} (h : AgreeBelow n a (keepBelow b n)) :
    AgreeBelow n a b := fun k hk =>
  (h k hk).trans ((keepBelow_getElem _ _ k).trans (if_pos hk))

theorem lanesWritten_of_agreeBelow (l m : LaneReg) {n : Nat} {s u : State}
    (h : AgreeBelow n (u.inp.lanes l) (s.inp.lanes m)) (hwritten : LanesWritten m n s) :
    LanesWritten l n u := fun k hk => by
  rw [h k hk]
  exact hwritten k hk

/-- FRAME_DECODE on the frame that FRAME_ENCODE or PGN_PACK left in OUT: it gets back the fields
that were packed and the data lanes that were read. -/
theorem execFrameDecode_of_frameResult {s t u : State} {f : IdFields} {n : BitVec 8}
    (hn8 : n.toNat ≤ 8) (h : frameResult f n s = .next t)
    (hid : u.inp.fid = t.out.frame.fid) (hlen : u.inp.flen = t.out.frame.flen)
    (hlanes : AgreeBelow n.toNat u.inp.fdata t.out.frame.fdata) :
    exec .frameDecode u = .next (succeed { u.out with
      pdu := decodedPdu (pack29 f) (n.extractLsb' 0 4) (keepBelow s.inp.data n.toNat) } u) := by
  obtain ⟨hwritten, rfl⟩ := frameResult_next h
  have hn : (n.extractLsb' 0 4).toNat = n.toNat := toNat_slice_zero_of_lt (by omega)
  have hkept : AgreeBelow n.toNat u.inp.fdata s.inp.data := agreeBelow_of_keepBelow hlanes
  have hw : LanesWritten .fdata n.toNat u :=
    lanesWritten_of_agreeBelow .fdata .data hkept hwritten
  rw [execFrameDecode_of_written hid hlen (hn ▸ hn8) (hn ▸ hw), hn, keepBelow_congr hkept]

/-- Settles O21: the packed fields split again, and those that were checked to fit keep their
numbers. -/
theorem encodeThenDecodeReturnsThePdu : Obligations.EncodeThenDecodeReturnsThePdu := by
  unfold Obligations.EncodeThenDecodeReturnsThePdu
  intro s t u p r dp pf ps sa n hp hr hdp hpf hps hsa hn h herr hid hlen hlanes
  rw [execFrameEncode_eq hp hr hdp hpf hps hsa hn] at h
  split at h
  · cases h; exact absurd rfl (not_raise_of_err_eq_zero herr)
  · next hfits =>
    simp only [not_or, Nat.not_lt] at hfits
    obtain ⟨hp7, hr1, hdp1, hn8⟩ := hfits
    refine ⟨_, execFrameDecode_of_frameResult hn8 h hid hlen hlanes, err_succeed _ _, ?_⟩
    simp only [succeed_out, decodedPdu, split29_pack29, Option.map_some, Option.some.injEq]
    exact ⟨toNat_slice_zero_of_lt (by omega), toNat_slice_zero_of_lt (by omega),
      toNat_slice_zero_of_lt (by omega), trivial, trivial, trivial,
      toNat_slice_zero_of_lt (by omega), fun k hk => (keepBelow_getElem _ _ k).trans (if_pos hk)⟩

/-- FRAME_ENCODE on zero-extended fields, with a legal length: the range check passes and each field
is sliced back unchanged. -/
theorem execFrameEncode_of_fields {s : State} {f : IdFields} {n : BitVec 4}
    (hp : s.inp.prio = some (f.p.setWidth 8)) (hr : s.inp.rbit = some (f.rbit.setWidth 8))
    (hdp : s.inp.dp = some (f.dp.setWidth 8)) (hpf : s.inp.pf = some f.pf)
    (hps : s.inp.ps = some f.ps) (hsa : s.inp.sa = some f.sa)
    (hn : s.inp.len = some (n.setWidth 8)) (hn8 : n.toNat ≤ 8)
    (hwritten : LanesWritten .data n.toNat s) :
    exec .frameEncode s = .next (succeed { s.out with
      frame := { fid := some (pack29 f), flen := some n,
                 fdata := keepBelow s.inp.data n.toNat } } s) := by
  have hlen : (n.setWidth 8).toNat = n.toNat := BitVec.toNat_setWidth_of_le (by decide)
  have hfits : ¬ (7 < (f.p.setWidth 8).toNat ∨ 1 < (f.rbit.setWidth 8).toNat ∨
      1 < (f.dp.setWidth 8).toNat ∨ 8 < (n.setWidth 8).toNat) := by
    have hp3 := f.p.isLt
    have hr1 := f.rbit.isLt
    have hdp1 := f.dp.isLt
    simp only [BitVec.toNat_setWidth]
    omega
  rw [execFrameEncode_eq hp hr hdp hpf hps hsa hn, if_neg hfits, frameResult, hlen,
    laneOperands_ok hwritten, slice_setWidth _ (by decide), slice_setWidth _ (by decide),
    slice_setWidth _ (by decide), slice_setWidth _ (by decide)]
  rfl

/-- Settles O22: the fields of a split identifier pack to the identifier again. -/
theorem decodeThenEncodeReturnsTheFrame : Obligations.DecodeThenEncodeReturnsTheFrame := by
  unfold Obligations.DecodeThenEncodeReturnsTheFrame
  intro s t u id n hid hn h herr hp hr hdp hpf hps hsa hlen hlanes
  obtain ⟨id', n', hid', hn', ⟨-, hraise⟩ | ⟨hn8, hwritten, rfl⟩⟩ := execFrameDecode_next h
  · exact absurd hraise (not_raise_of_err_eq_zero herr)
  obtain rfl := Option.some.inj (hid'.symm.trans hid)
  obtain rfl := Option.some.inj (hn'.symm.trans hn)
  have hkept : AgreeBelow n'.toNat u.inp.data s.inp.fdata := agreeBelow_of_keepBelow hlanes
  refine ⟨_, execFrameEncode_of_fields (f := split29 id') hp hr hdp hpf hps hsa hlen hn8
    (lanesWritten_of_agreeBelow .data .fdata hkept hwritten), err_succeed _ _, ?_, rfl,
    fun k hk => ?_⟩
  · exact congrArg some (pack29_split29 id')
  · exact (keepBelow_getElem _ _ k).trans ((if_pos hk).trans (hkept k hk))

theorem isPdu2_of_le {pf : BitVec 8} (h : 240 ≤ pf.toNat) : isPdu2 pf = true := decide_eq_true h

theorem isPdu2_of_lt {pf : BitVec 8} (h : pf.toNat < 240) : isPdu2 pf = false :=
  decide_eq_false (Nat.not_le.2 h)

/-- The PS byte that PGN_PACK takes restores the PGN (30_encoding.md R59): in PDU2 it is the low
byte, and in PDU1 the low byte is 0. -/
theorem pgnOf_of_pgnPackPs {g : BitVec 32} {da ps : BitVec 8} (hg : g.toNat ≤ 0x3FFFF)
    (hps : pgnPackPs g da = some ps) :
    (pgnOf (g.extractLsb' 17 1) (g.extractLsb' 16 1) (g.extractLsb' 8 8) ps).toNat = g.toNat := by
  rw [pgnOf_toNat]
  simp only [toNat_slice]
  obtain ⟨hpdu2, -, hlow⟩ | ⟨hpdu1, hlow, -⟩ := (pgnPackPs_eq_some g da ps).1 hps
  · rw [if_pos hpdu2]
    omega
  · rw [if_neg (Nat.not_le.2 hpdu1)]
    omega

/-- Settles O23: the packed fields split again; the kind of the PGN decides what PS was. -/
theorem pgnPackAgreesWithDecode : Obligations.PgnPackAgreesWithDecode := by
  unfold Obligations.PgnPackAgreesWithDecode
  intro s t u p g da sa n hp hg hda hsa hn h herr hid hlen hlanes
  obtain ⟨p', g', da', sa', n', hp', hg', hda', hsa', hn', hends⟩ := execPgnPack_next h
  obtain rfl := Option.some.inj (hp'.symm.trans hp)
  obtain rfl := Option.some.inj (hg'.symm.trans hg)
  obtain rfl := Option.some.inj (hda'.symm.trans hda)
  obtain rfl := Option.some.inj (hsa'.symm.trans hsa)
  obtain rfl := Option.some.inj (hn'.symm.trans hn)
  obtain ⟨-, hraise⟩ | ⟨hp7, hg18, hn8, ps, hps, hframe⟩ := hends
  · exact absurd hraise (not_raise_of_err_eq_zero herr)
  refine ⟨_, execFrameDecode_of_frameResult hn8 hframe hid hlen hlanes, err_succeed _ _, ?_⟩
  have hpf : (g'.extractLsb' 8 8).toNat = g'.toNat / 2 ^ 8 % 2 ^ 8 := toNat_slice g' 8 8
  simp only [succeed_out, decodedPdu, split29_pack29, Option.map_some, Option.some.injEq]
  refine ⟨pgnOf_of_pgnPackPs hg18 hps, toNat_slice_zero_of_lt (by omega), trivial, ?_⟩
  obtain ⟨hpdu2, -, hlow⟩ | ⟨hpdu1, -, rfl⟩ := (pgnPackPs_eq_some g' da' ps).1 hps
  · rw [isPdu2_of_le (hpf.symm ▸ hpdu2)]
    exact .inr ⟨hpdu2, rfl, congrArg some hlow⟩
  · rw [isPdu2_of_lt (hpf.symm ▸ hpdu1)]
    exact .inl ⟨hpdu1, rfl, rfl⟩

end Sys2Proof.Machine
end

section
/-! The round trips of the NAME codec and the reading of the comparison (41_name_codec.md R79 to
R81). -/

namespace Sys2Proof.Machine

/-- Each slice of a packed NAME is the field packed at its position, as a number. -/
theorem nameUnpack_namePack (f : NameFields) : nameUnpack (namePack f) = f := by
  cases f
  simp only [nameUnpack, NameFields.mk.injEq]
  refine ⟨?_, ?_, ?_, ?_, ?_, ?_, ?_, ?_, ?_, ?_⟩
  all_goals
    apply BitVec.eq_of_toNat_eq
    simp only [toNat_slice, namePack_toNat]
    omega

/-- NAME_ENCODE on zero-extended fields: the width check passes and each field is sliced back
unchanged. -/
theorem execNameEncode_of_fields {s : State} {f : NameFields}
    (haac : s.inp.aac = some (f.aac.setWidth 8)) (hig : s.inp.ig = some (f.ig.setWidth 8))
    (hvsi : s.inp.vsi = some (f.vsi.setWidth 8)) (hvs : s.inp.vs = some (f.vs.setWidth 8))
    (hrsv : s.inp.nrsv = some (f.rsv.setWidth 8)) (hfn : s.inp.func = some f.fn)
    (hfi : s.inp.finst = some (f.fi.setWidth 8)) (hecu : s.inp.ecui = some (f.ecu.setWidth 8))
    (hmfg : s.inp.mfg = some (f.mfg.setWidth 16)) (hidn : s.inp.idn = some (f.idn.setWidth 32)) :
    exec .nameEncode s = .next (succeed { s.out with name := some (namePack f) } s) := by
  have hfits : ¬ (1 < (f.aac.setWidth 8).toNat ∨ 7 < (f.ig.setWidth 8).toNat ∨
      15 < (f.vsi.setWidth 8).toNat ∨ 127 < (f.vs.setWidth 8).toNat ∨
      1 < (f.rsv.setWidth 8).toNat ∨ 31 < (f.fi.setWidth 8).toNat ∨
      7 < (f.ecu.setWidth 8).toNat ∨ 2047 < (f.mfg.setWidth 16).toNat ∨
      0x1FFFFF < (f.idn.setWidth 32).toNat) := by
    have haac1 := f.aac.isLt
    have hig3 := f.ig.isLt
    have hvsi4 := f.vsi.isLt
    have hvs7 := f.vs.isLt
    have hrsv1 := f.rsv.isLt
    have hfi5 := f.fi.isLt
    have hecu3 := f.ecu.isLt
    have hmfg11 := f.mfg.isLt
    have hidn21 := f.idn.isLt
    simp only [BitVec.toNat_setWidth]
    omega
  rw [execNameEncode_eq haac hig hvsi hvs hrsv hfn hfi hecu hmfg hidn, if_neg hfits]
  iterate 9 rw [slice_setWidth _ (by decide)]

/-- Settles O24: the packed fields unpack again, and those that were checked to fit keep their
numbers; a NAME is packed from its own fields. -/
theorem nameFieldRoundTrip : Obligations.NameFieldRoundTrip := by
  unfold Obligations.NameFieldRoundTrip
  refine ⟨?encodeDecode, fun s u n hn => ⟨_, execNameDecode_eq hn, ?decodeEncode⟩⟩
  case encodeDecode =>
    intro s t u aac ig vsi vs rsv fn fi ecu mfg idn haac hig hvsi hvs hrsv hfn hfi hecu hmfg hidn
      h herr hname
    rw [execNameEncode_eq haac hig hvsi hvs hrsv hfn hfi hecu hmfg hidn] at h
    split at h
    · cases h; exact absurd rfl (not_raise_of_err_eq_zero herr)
    · next hfits =>
      cases h
      simp only [not_or, Nat.not_lt] at hfits
      obtain ⟨haac1, hig3, hvsi4, hvs7, hrsv1, hfi5, hecu3, hmfg11, hidn21⟩ := hfits
      refine ⟨_, execNameDecode_eq hname, ?_⟩
      simp only [succeed_out, decodedName, nameUnpack_namePack, Option.map_some, Option.some.injEq]
      refine ⟨?_, ?_, ?_, ?_, ?_, trivial, ?_, ?_, ?_, ?_⟩
      all_goals exact toNat_slice_zero_of_lt (by omega)
  case decodeEncode =>
    intro haac hig hvsi hvs hrsv hfn hfi hecu hmfg hidn
    exact ⟨_, execNameEncode_of_fields (f := nameUnpack n) haac hig hvsi hvs hrsv hfn hfi hecu hmfg
      hidn, err_succeed _ _, congrArg some (namePack_nameUnpack n)⟩

/-- A NAME is the one assembled from its bytes (30_encoding.md R61): neighbouring slices join. -/
theorem nameFromBytes_nameByte (n : BitVec 64) :
    nameFromBytes (nameByte n 0) (nameByte n 1) (nameByte n 2) (nameByte n 3) (nameByte n 4)
      (nameByte n 5) (nameByte n 6) (nameByte n 7) = n := by
  unfold nameFromBytes nameByte
  iterate 7 rw [BitVec.extractLsb'_append_extractLsb'_eq_extractLsb' (by rfl)]
  exact BitVec.extractLsb'_eq_self

/-- Settles O25: each way the bytes of a NAME and the NAME of bytes are inverse. -/
theorem nameByteRoundTrip : Obligations.NameByteRoundTrip := by
  unfold Obligations.NameByteRoundTrip
  refine ⟨fun s u n hn => ⟨_, execNameToBytes_eq hn, fun hbytes => ?toFrom⟩,
    fun s u hwritten => ?fromTo⟩
  case toFrom =>
    have hlanes : ∀ k, u.inp.get (.lane .nbytes k) = some (nameByte n k) := fun k => by
      change u.inp.nbytes[k] = _
      rw [hbytes]
      exact tabulate_getElem (fun i => some (nameByte n i)) k
    exact ⟨_, execNameFromBytes_eq hlanes, congrArg some (nameFromBytes_nameByte n)⟩
  case fromTo =>
    choose b hb using fun k : Fin 8 => Option.isSome_iff_exists.1 (hwritten k k.isLt)
    refine ⟨_, execNameFromBytes_eq hb, fun hname => ⟨_, execNameToBytes_eq hname, ?_⟩⟩
    refine lanes_ext fun k => ?_
    rw [succeed_out, tabulate_getElem, nameByte_nameFromBytes]
    exact (hb k).symm

/-- Settles O26: the comparison code of the two numbers, in each of their three orders. -/
theorem contentionReading : Obligations.ContentionReading := by
  unfold Obligations.ContentionReading
  intro s a b ha hb
  refine ⟨_, execNameCompare_eq ha hb, ?_⟩
  rw [succeed_out]
  obtain h | h | h := lt_trichotomy a.toNat b.toNat
  · simp [nameOrder_of_lt h, h, h.le]
  · simp [nameOrder_of_eq h, h]
  · simp [nameOrder_of_gt h, h, h.le]

end Sys2Proof.Machine
end

section
/-! Every command is a function of IN (20_memory.md R36): it reads IN alone, and what it answers is
one of the two commits. So two states with the same IN get the same commit, each on its own OUT and
STATUS. -/

namespace Sys2Proof.Machine

/-- `f` with the content of the result group `g` taken from `src`. -/
def OutFile.withGroup (f : OutFile) (g : Group) (src : OutFile) : OutFile :=
  match g with
  | .frame => { f with frame := src.frame }
  | .pdu => { f with pdu := src.pdu }
  | .name => { f with name := src.name }
  | .nfields => { f with nfields := src.nfields }
  | .cmp => { f with cmp := src.cmp }
  | .nbytes => { f with nbytes := src.nbytes }

theorem OutFile.get_withGroup_same (f src : OutFile) {g : Group} {q : OutReg} (h : q.group = g) :
    (f.withGroup g src).get q = src.get q := by
  subst h
  cases q with
  | lane l i => cases l <;> rfl
  | _ => rfl

@[simp] theorem OutFile.withGroup_self (f : OutFile) (g : Group) : f.withGroup g f = f := by
  cases g <;> rfl

@[simp] theorem OutFile.withGroup_withGroup (f h src : OutFile) (g : Group) :
    f.withGroup g (h.withGroup g src) = f.withGroup g src := by
  cases g <;> rfl

/-- A cleared group has the same content whatever was in it. -/
theorem OutFile.withGroup_clear (f h : OutFile) (g : Group) :
    f.withGroup g (h.clear g) = f.clear g := by
  cases g <;> rfl

/-- A command on a state `u` with the same IN as `s` answers `F` of what it answers on `s`, when `F`
takes each commit on `s` to the same commit on `u`. -/
theorem exec_mapNext (i : Instr) {s u : State} {F : State → State} (hinp : u.inp = s.inp)
    (hraise : ∀ e, raise e (some i) u = F (raise e (some i) s))
    (hsucceed : ∀ src, succeed (u.out.withGroup (resultGroup i) src) u =
      F (succeed (s.out.withGroup (resultGroup i) src) s)) :
    exec i u = mapNext F (exec i s) := by
  have hget : ∀ r, u.inp.get r = s.inp.get r := fun r => by rw [hinp]
  have hlanes : ∀ l n, AgreeBelow n (u.inp.lanes l) (s.inp.lanes l) := fun l n k _ => by rw [hinp]
  have hraises : ∀ e, (.next (raise e (some i) u) : Result) =
      mapNext F (.next (raise e (some i) s)) := fun e => congrArg _ (hraise e)
  have hsucceeds : ∀ src, (.next (succeed (u.out.withGroup (resultGroup i) src) u) : Result) =
      mapNext F (.next (succeed (s.out.withGroup (resultGroup i) src) s)) :=
    fun src => congrArg _ (hsucceed src)
  cases i with
  | frameDecode =>
    iterate 2 refine operand_mapNext (hget _) fun _ _ => ?_
    split
    · exact hraises _
    · exact laneOperands_mapNext (hlanes _ _) fun d => hsucceeds { s.out with pdu := _ }
  | frameEncode =>
    iterate 7 refine operand_mapNext (hget _) fun _ _ => ?_
    split
    · exact hraises _
    · exact laneOperands_mapNext (hlanes _ _) fun d => hsucceeds { s.out with frame := _ }
  | pgnPack =>
    iterate 5 refine operand_mapNext (hget _) fun _ _ => ?_
    split
    · exact hraises _
    · split
      · exact hraises _
      · exact laneOperands_mapNext (hlanes _ _) fun d => hsucceeds { s.out with frame := _ }
  | nameDecode =>
    exact operand_mapNext (hget _) fun _ _ => hsucceeds { s.out with nfields := _ }
  | nameEncode =>
    iterate 10 refine operand_mapNext (hget _) fun _ _ => ?_
    split
    · exact hraises _
    · exact hsucceeds { s.out with name := _ }
  | nameCompare =>
    iterate 2 refine operand_mapNext (hget _) fun _ _ => ?_
    exact hsucceeds { s.out with cmp := _ }
  | nameToBytes =>
    exact operand_mapNext (hget _) fun _ _ => hsucceeds { s.out with nbytes := _ }
  | nameFromBytes =>
    iterate 8 refine operand_mapNext (hget _) fun _ _ => ?_
    exact hsucceeds { s.out with name := _ }

/-- `u` after the commit that led to `t`: the result group of `t`, and its code in STATUS. -/
def State.adopt (g : Group) (u t : State) : State :=
  { u with out := u.out.withGroup g t.out, status := statusCommit (statusErr t.status) u.status }

theorem adopt_raise (e : ErrorCause) (i : Instr) (s u : State) :
    u.adopt (resultGroup i) (raise e (some i) s) = raise e (some i) u := by
  simp [State.adopt, raise, OutFile.withGroup_clear]

theorem adopt_succeed (g : Group) (src : OutFile) (s u : State) :
    u.adopt g (succeed (s.out.withGroup g src) s) = succeed (u.out.withGroup g src) u := by
  simp [State.adopt, succeed]

/-- Two states with the same IN get the same commit. -/
theorem exec_adopt (i : Instr) {s u : State} (hinp : u.inp = s.inp) :
    exec i u = mapNext (u.adopt (resultGroup i)) (exec i s) :=
  exec_mapNext i hinp (fun e => (adopt_raise e i s u).symm) fun src =>
    (adopt_succeed (resultGroup i) src s u).symm

/-- Settles O41: the state with the same IN adopts the commit. -/
theorem commandDependsOnInOnly : Obligations.CommandDependsOnInOnly := by
  unfold Obligations.CommandDependsOnInOnly
  intro i s u hinp
  have hexec := exec_adopt i hinp.symm
  refine ⟨fun t ht => ?next, fun f hf => ?fault⟩
  case next =>
    rw [ht, mapNext_next] at hexec
    obtain ⟨⟨_, -, hvalid, -⟩, -⟩ := exec_committed_onlyGroup ht
    exact ⟨_, hexec, fun q hq => OutFile.get_withGroup_same _ _ hq, statusErr_statusCommit _ _,
      (statusValid_statusCommit _ _).trans hvalid.symm⟩
  case fault => rwa [hf, mapNext_fault] at hexec

/-- A STATUS with VALID set is the commit of its own code. -/
theorem statusCommit_statusErr {st : BitVec 8} (h : statusValid st = 1) :
    statusCommit (statusErr st) st = st := by
  change (1#1 ++ statusReserved st ++ statusErr st : BitVec (1 + 4 + 3)) = st
  rw [show 1#1 = statusValid st from h.symm]
  unfold statusValid statusReserved statusErr
  iterate 2 rw [BitVec.extractLsb'_append_extractLsb'_eq_extractLsb' (by rfl)]
  exact BitVec.extractLsb'_eq_self

/-- Settles O42: the command kept IN, and a state that adopts its own commit is unchanged. -/
theorem commandIsIdempotent : Obligations.CommandIsIdempotent := by
  unfold Obligations.CommandIsIdempotent
  intro i s t h
  obtain ⟨⟨_, -, hvalid, -⟩, hinp, -⟩ := exec_committed_onlyGroup h
  have hself : t.adopt (resultGroup i) t = t := by
    rw [State.adopt, OutFile.withGroup_self, statusCommit_statusErr hvalid]
  rw [exec_adopt i hinp, h, mapNext_next, hself]

/-- `s` with another source address in IN. -/
def State.withSource (x : BitVec 8) (s : State) : State :=
  { s with inp := { s.inp with sa := some x } }

/-- The end of the two encoders does not depend on the source address but for the identifier. -/
theorem frameResult_withSource {s t : State} {f : IdFields} {n : BitVec 8} (x : BitVec 8)
    (f' : IdFields) (h : frameResult f n s = .next t) :
    ∃ v, frameResult f' n (s.withSource x) = .next v ∧
      v.status.extractLsb' 0 3 = t.status.extractLsb' 0 3 := by
  obtain ⟨hwritten, rfl⟩ := frameResult_next h
  have hw : LanesWritten .data n.toNat (s.withSource x) := hwritten
  rw [frameResult, laneOperands_ok hw]
  exact ⟨_, rfl, (err_succeed _ _).trans (err_succeed _ _).symm⟩

theorem frameEncode_withSource {s t : State} (x : BitVec 8) (h : exec .frameEncode s = .next t) :
    ∃ v, exec .frameEncode (s.withSource x) = .next v ∧
      v.status.extractLsb' 0 3 = t.status.extractLsb' 0 3 := by
  obtain ⟨p, r, dp, pf, ps, _, n, hp, hr, hdp, hpf, hps, -, hn, hends⟩ := execFrameEncode_next h
  rw [execFrameEncode_eq (s := s.withSource x) hp hr hdp hpf hps rfl hn]
  obtain ⟨hbad, rfl⟩ | ⟨hp7, hr1, hdp1, hn8, hframe⟩ := hends
  · rw [if_pos hbad]
    exact ⟨_, rfl, (err_raise _ _ _).trans (err_raise _ _ _).symm⟩
  · rw [if_neg (by omega)]
    exact frameResult_withSource x _ hframe

/-- PGN_PACK on operands that it does not accept. -/
theorem execPgnPack_of_bad {s : State} {g : BitVec 32} {p da sa n : BitVec 8}
    (hp : s.inp.prio = some p) (hg : s.inp.pgn = some g) (hda : s.inp.da = some da)
    (hsa : s.inp.sa = some sa) (hn : s.inp.len = some n)
    (hbad : 7 < p.toNat ∨ 0x3FFFF < g.toNat ∨ 8 < n.toNat ∨ pgnPackPs g da = none) :
    exec .pgnPack s = .next (raise .invalidPdu (some .pgnPack) s) := by
  rw [execPgnPack_eq hp hg hda hsa hn]
  split
  · rfl
  · next hranges => rw [show pgnPackPs g da = none by tauto]

theorem pgnPack_withSource {s t : State} (x : BitVec 8) (h : exec .pgnPack s = .next t) :
    ∃ v, exec .pgnPack (s.withSource x) = .next v ∧
      v.status.extractLsb' 0 3 = t.status.extractLsb' 0 3 := by
  obtain ⟨p, g, da, _, n, hp, hg, hda, -, hn, hends⟩ := execPgnPack_next h
  obtain ⟨hbad, rfl⟩ | ⟨hp7, hg18, hn8, ps, hps, hframe⟩ := hends
  · exact ⟨_, execPgnPack_of_bad (s := s.withSource x) hp hg hda rfl hn hbad,
      (err_raise _ _ _).trans (err_raise _ _ _).symm⟩
  · rw [execPgnPack_eq (s := s.withSource x) hp hg hda rfl hn, if_neg (by omega), hps]
    exact frameResult_withSource x _ hframe

/-- Settles O44: neither the range checks nor the choice of PS look at SA. -/
theorem sourceAddressIsNotJudged : Obligations.SourceAddressIsNotJudged := by
  unfold Obligations.SourceAddressIsNotJudged
  rintro i s t x (rfl | rfl) h
  · exact frameEncode_withSource x h
  · exact pgnPack_withSource x h

end Sys2Proof.Machine
end

section
/-! The outcomes of a host action (60_exceptions.md R82, R92) and what it leaves
(70_reset_and_hazards.md R110). A command stops at an operand that holds `⊥` and at nothing else. -/

namespace Sys2Proof.Machine

/-- The outcome `res` is a next state, or the fault on a cell among `reads` that holds `⊥`. -/
def NextOrUnwritten (reads : InReg → Prop) (s : State) (res : Result) : Prop :=
  (∃ t, res = .next t) ∨ ∃ q, reads q ∧ s.inp.get q = none ∧ res = .fault (.unwrittenOperand q)

theorem NextOrUnwritten.next (reads : InReg → Prop) (s t : State) :
    NextOrUnwritten reads s (.next t) := .inl ⟨t, rfl⟩

theorem NextOrUnwritten.operand {reads : InReg → Prop} {r : InReg} {s : State}
    {k : BitVec r.width → Result} (hr : reads r)
    (hk : ∀ v, s.inp.get r = some v → NextOrUnwritten reads s (k v)) :
    NextOrUnwritten reads s (operand r s k) := by
  cases hv : s.inp.get r with
  | none => rw [operand_none hv]; exact .inr ⟨r, hr, hv, rfl⟩
  | some v => rw [operand_some hv]; exact hk v hv

theorem NextOrUnwritten.laneOperands {reads : InReg → Prop} {l : LaneReg} {n : Nat} {s : State}
    {k : Lanes → Result} (hl : ∀ j : Fin 8, j.val < n → reads (.lane l j))
    (hk : ∀ d, NextOrUnwritten reads s (k d)) :
    NextOrUnwritten reads s (laneOperands l n s k) := by
  unfold Machine.laneOperands
  split
  · next j hj =>
    obtain ⟨hjn, hnone⟩ := firstUnwritten_eq_some hj
    exact .inr ⟨.lane l j, hl j hjn, hnone, rfl⟩
  · exact hk _

/-- The cells that `OperandsWritten` asks for: the scalar operands of `i`, and the lanes below a
legal length. -/
def IsOperand (i : Instr) (s : State) (q : InReg) : Prop :=
  q ∈ scalarOperands i ∨
    ∃ l n, laneOperand s i = some (l, n) ∧ n ≤ 8 ∧ ∃ j : Fin 8, j.val < n ∧ q = .lane l j

theorem isOperand_lane {i : Instr} {s : State} {l : LaneReg} {n : Nat}
    (h : laneOperand s i = some (l, n)) (hn : n ≤ 8) (j : Fin 8) (hj : j.val < n) :
    IsOperand i s (.lane l j) := .inr ⟨l, n, h, hn, j, hj, rfl⟩

/-- The end of the two encoders reads the data lanes below the length. -/
theorem frameResult_nextOrUnwritten {i : Instr} {s : State} {n : BitVec 8} (f : IdFields)
    (h : laneOperand s i = some (.data, n.toNat)) (hn : n.toNat ≤ 8) :
    NextOrUnwritten (IsOperand i s) s (frameResult f n s) :=
  .laneOperands (isOperand_lane h hn) fun _ => .next _ _ _

/-- A command answers a next state or faults on one of its operands. -/
theorem exec_nextOrUnwritten (i : Instr) (s : State) :
    NextOrUnwritten (IsOperand i s) s (exec i s) := by
  cases i with
  | frameDecode =>
    refine .operand (.inl (by decide)) fun _ _ => .operand (.inl (by decide)) fun n hn => ?_
    split
    · exact .next _ _ _
    · next hn8 =>
      exact .laneOperands (isOperand_lane (congrArg (Option.map _) hn) (Nat.not_lt.1 hn8))
        fun _ => .next _ _ _
  | frameEncode =>
    iterate 6 refine .operand (.inl (by decide)) fun _ _ => ?_
    refine .operand (.inl (by decide)) fun n hn => ?_
    split
    · exact .next _ _ _
    · next hfits =>
      simp only [not_or, Nat.not_lt] at hfits
      obtain ⟨-, -, -, hn8⟩ := hfits
      exact frameResult_nextOrUnwritten _ (congrArg (Option.map _) hn) hn8
  | pgnPack =>
    iterate 4 refine .operand (.inl (by decide)) fun _ _ => ?_
    refine .operand (.inl (by decide)) fun n hn => ?_
    split
    · exact .next _ _ _
    · next hfits =>
      simp only [not_or, Nat.not_lt] at hfits
      obtain ⟨-, -, hn8⟩ := hfits
      split
      · exact .next _ _ _
      · exact frameResult_nextOrUnwritten _ (congrArg (Option.map _) hn) hn8
  | nameDecode => exact .operand (.inl (by decide)) fun _ _ => .next _ _ _
  | nameEncode =>
    iterate 10 refine .operand (.inl (by decide)) fun _ _ => ?_
    split <;> exact .next _ _ _
  | nameCompare =>
    iterate 2 refine .operand (.inl (by decide)) fun _ _ => ?_
    exact .next _ _ _
  | nameToBytes => exact .operand (.inl (by decide)) fun _ _ => .next _ _ _
  | nameFromBytes =>
    iterate 8 refine .operand (.inl (by decide)) fun _ _ => ?_
    exact .next _ _ _

/-- Settles O35: each kind of action that answers a next state writes at most one IN register, or
the group of its command. -/
theorem registersPersist : Obligations.RegistersPersist := by
  unfold Obligations.RegistersPersist
  intro s t a rest hp h hreset
  rw [step_cons s a rest hp] at h
  obtain ⟨p, v, rfl, rfl⟩ | ⟨w, i, rfl, hw, h⟩ | ⟨_, rfl, -, rfl⟩ | ⟨_, _, rfl, -, rfl⟩ |
    ⟨rfl, -⟩ := act_next h
  · refine ⟨fun q hq => InFile.get_set_other _ p q v ?_, fun _ _ => rfl⟩
    rintro rfl
    exact hq v rfl
  · obtain ⟨-, hinp, hout, -⟩ := exec_committed_onlyGroup h
    exact ⟨fun q _ => by rw [hinp], fun q hq => hout q fun hg => hq w i rfl hw hg.symm⟩
  · exact ⟨fun _ _ => rfl, fun _ _ => rfl⟩
  · exact ⟨fun _ _ => rfl, fun _ _ => rfl⟩
  · exact absurd rfl hreset

/-- `s` with the host about to perform the actions `as`. -/
def State.withPending (as : List Action) (s : State) : State := { s with pending := as }

theorem content_withPending (as : List Action) (s : State) (r : Reg) :
    content (s.withPending as) r = content s r := by
  cases r <;> rfl

/-- Settles O36: a command stops at an unwritten operand only, and each other action has one
outcome by the register it names. -/
theorem outcomesOfAnAction : Obligations.OutcomesOfAnAction := by
  unfold Obligations.OutcomesOfAnAction
  intro s a rest hp
  rw [step_cons s a rest hp]
  cases a with
  | wr r v =>
    cases r with
    | inp q => exact .inl ⟨_, act_wr_inp _ q v⟩
    | out q => exact .inr (.inr (.inr (.inl ⟨.out q, v, rfl, .inr ⟨q, rfl⟩, act_wr_out _ q v⟩)))
    | status => exact .inr (.inr (.inr (.inl ⟨.status, v, rfl, .inl rfl, act_wr_status _ v⟩)))
    | cmd =>
      cases hd : decode v with
      | ok i =>
        rw [act_wr_cmd_of_ok hd]
        obtain hnext | ⟨q, -, hq, hfault⟩ := exec_nextOrUnwritten i { s with pending := rest }
        · exact .inl hnext
        · exact .inr (.inl ⟨q, v, rfl, hq, hfault⟩)
      | error _ => exact .inl ⟨_, act_wr_cmd_of_illegal (decode_toOption_of_error hd) _⟩
  | rd r =>
    by_cases hr : r = .cmd
    · subst hr
      exact .inr (.inr (.inr (.inr ⟨rfl, act_rd_cmd _⟩)))
    · cases hc : content s r with
      | none =>
        exact .inr (.inr (.inl ⟨r, rfl, hr, hc,
          act_rd_of_no_content hr ((content_withPending rest s r).trans hc)⟩))
      | some v => exact .inl ⟨_, act_rd_of_content ((content_withPending rest s r).trans hc)⟩
  | reset => exact .inl ⟨_, act_reset _⟩

end Sys2Proof.Machine
end

section
/-! The command words, both ways (30_encoding.md R48, R50, R51). -/

namespace Sys2Proof

/-- Settles O1: the eight words by computation, and the others by `decode_toOption_of_illegal`. -/
theorem commandWordDecoding : Obligations.CommandWordDecoding :=
  ⟨rfl, rfl, rfl, rfl, rfl, rfl, rfl, rfl, fun _ => decode_toOption_of_illegal⟩

/-- Each command's word selects it (30_encoding.md R50). -/
theorem decode_encode (i : Instr) : decode (encode i) = .ok i := by
  cases i <;> rfl

theorem Instr.wf_eq_true (i : Instr) : i.wf = true := by
  cases i <;> rfl

/-- Settles O2: decoding inverts encoding and encoding inverts decoding. -/
theorem decodeEncodeAgree : Obligations.DecodeEncodeAgree := by
  unfold Obligations.DecodeEncodeAgree
  refine fun i w => ⟨i.wf_eq_true, ?_, encode_of_decode⟩
  rintro rfl
  exact decode_encode i

/-- A table word that the decoder accepts is the command's word. -/
theorem decode_of_decodeTableWord {n w : Nat} {i : Instr} (h : decodeTableWord n w = some i) :
    decode (BitVec.ofNat 8 (tableWord n w)) = .ok i := by
  unfold decodeTableWord at h
  split at h
  · cases hd : decode (BitVec.ofNat 8 (tableWord n w)) with
    | ok j => rw [hd] at h; cases h; rfl
    | error _ => rw [hd] at h; cases h
  · cases h

end Sys2Proof
end

section
/-! Runs of host actions (20_memory.md R39, 70_reset_and_hazards.md R107, R112). A run is the
chain of its actions: what is still pending is no part of what an action does. -/

namespace Sys2Proof.Machine

/-- Go on from the next state an outcome answers; a fault or refusal stays. -/
def andThen (res : Result) (k : State → Result) : Result :=
  match res with
  | .next s => k s
  | .fault r => .fault r
  | .refused r => .refused r

@[simp] theorem andThen_next (s : State) (k : State → Result) : andThen (.next s) k = k s := rfl

theorem andThen_eq_next {res : Result} {k : State → Result} {t : State} :
    andThen res k = .next t ↔ ∃ u, res = .next u ∧ k u = .next t := by
  cases res <;> simp [andThen]

theorem andThen_assoc (res : Result) (k m : State → Result) :
    andThen (andThen res k) m = andThen res fun s => andThen (k s) m := by
  cases res <;> rfl

theorem andThen_mapNext (f : State → State) (res : Result) (k : State → Result) :
    andThen (mapNext f res) k = andThen res fun s => k (f s) := by
  cases res <;> rfl

theorem exec_withPending (i : Instr) (s : State) (as : List Action) :
    exec i (s.withPending as) = mapNext (State.withPending as) (exec i s) :=
  exec_mapNext i rfl (fun _ => rfl) fun _ => rfl

/-- No action looks at or changes what is pending. -/
theorem act_withPending (a : Action) (s : State) (as : List Action) :
    act a (s.withPending as) = mapNext (State.withPending as) (act a s) := by
  cases a with
  | wr r v =>
    cases r with
    | inp q => rfl
    | out q => rfl
    | status => rfl
    | cmd =>
      cases hd : decode v with
      | ok i => rw [act_wr_cmd_of_ok hd, act_wr_cmd_of_ok hd, exec_withPending]
      | error _ =>
        have hd := decode_toOption_of_error hd
        rw [act_wr_cmd_of_illegal hd, act_wr_cmd_of_illegal hd]
        rfl
  | rd r =>
    by_cases hr : r = .cmd
    · subst hr; rfl
    · cases hc : content s r with
      | none =>
        rw [act_rd_of_no_content hr hc,
          act_rd_of_no_content hr ((content_withPending as s r).trans hc), mapNext_fault]
      | some v =>
        rw [act_rd_of_content hc, act_rd_of_content ((content_withPending as s r).trans hc)]
        rfl
  | reset => rfl

theorem core_run_succ_of_next {M : Host.Core} {k : Nat} {s t : M.State} (h : M.step s = .next t) :
    M.run (k + 1) s = M.run k t := by
  simp only [Host.Core.run, h]

theorem core_run_succ_of_fault {M : Host.Core} {k : Nat} {s : M.State} {r : M.Fault}
    (h : M.step s = .fault r) : M.run (k + 1) s = .fault r := by
  simp only [Host.Core.run, h]

theorem core_run_succ_of_refused {M : Host.Core} {k : Nat} {s : M.State} {r : M.Refusal}
    (h : M.step s = .refused r) : M.run (k + 1) s = .refused r := by
  simp only [Host.Core.run, h]

/-- `k` steps of one JCB (`Host.Core.run` of the machine, on its own type of states). -/
def steps (k : Nat) (s : State) : Result := Sys2Proof.core.run k s

theorem steps_succ (k : Nat) (s : State) : steps (k + 1) s = andThen (step s) (steps k) := by
  cases h : step s with
  | next t => exact core_run_succ_of_next h
  | fault r => exact core_run_succ_of_fault h
  | refused r => exact core_run_succ_of_refused h

theorem runActions_eq_steps (as : List Action) (s : State) :
    runActions as s = steps as.length (s.withPending as) := rfl

theorem runActions_nil (s : State) : runActions [] s = .next (s.withPending []) := rfl

/-- A run is its first action, then the rest. -/
theorem runActions_cons (a : Action) (as : List Action) (s : State) :
    runActions (a :: as) s = andThen (act a s) (runActions as) := by
  have hfirst : step (s.withPending (a :: as)) = act a (s.withPending as) := step_cons _ a as rfl
  rw [runActions_eq_steps, List.length_cons, steps_succ, hfirst, act_withPending, andThen_mapNext]
  rfl

theorem runActions_append (as bs : List Action) (s : State) :
    runActions (as ++ bs) s = andThen (runActions as s) (runActions bs) := by
  induction as generalizing s with
  | nil => rfl
  | cons a as ih =>
    rw [List.cons_append, runActions_cons, runActions_cons, andThen_assoc]
    exact congrArg _ (funext ih)

/-- Settles O38: a run of two parts is the first part, then the second. -/
theorem actionsTakeEffectInOrder : Obligations.ActionsTakeEffectInOrder := by
  unfold Obligations.ActionsTakeEffectInOrder
  intro as bs s t
  rw [runActions_append]
  exact andThen_eq_next

/-- Settles O40: a run that ends well passes through the next state of its first part. -/
theorem endingWellIsPrefixClosed : Obligations.EndingWellIsPrefixClosed := by
  unfold Obligations.EndingWellIsPrefixClosed
  rintro as bs ⟨t, h⟩
  obtain ⟨u, hu, -⟩ := (actionsTakeEffectInOrder as bs State.reset t).1 h
  exact ⟨u, hu⟩

/-- Settles O37: read after write of the IN file, over two steps. -/
theorem writeThenReadReturnsTheValue : Obligations.WriteThenReadReturnsTheValue := by
  unfold Obligations.WriteThenReadReturnsTheValue
  intro s q v rest hp
  have hread : content { s with inp := s.inp.set q v, pending := rest } (.inp q) = some v :=
    InFile.get_set_same s.inp q v
  have hsteps : steps 2 s = .next { s with
      inp := s.inp.set q v, pending := rest, observed := s.observed ++ [⟨.inp q, v⟩] } := by
    rw [steps_succ, step_cons s _ _ hp, act_wr_inp, andThen_next, steps_succ,
      step_cons _ _ rest rfl, act_rd_of_content hread]
    rfl
  exact ⟨_, hsteps, rfl, rfl⟩

/-- Two IN files in which every register and lane reads the same are equal. -/
theorem InFile.ext_get {f h : InFile} (hget : ∀ q, f.get q = h.get q) : f = h := by
  have hfdata : f.fdata = h.fdata := lanes_ext fun k => hget (.lane .fdata k)
  have hdata : f.data = h.data := lanes_ext fun k => hget (.lane .data k)
  have hnbytes : f.nbytes = h.nbytes := lanes_ext fun k => hget (.lane .nbytes k)
  cases f
  cases h
  simp only [InFile.mk.injEq]
  exact ⟨hget .fid, hget .flen, hfdata, hget .prio, hget .rbit, hget .dp, hget .pf, hget .ps,
    hget .sa, hget .len, hdata, hget .pgn, hget .da, hget .aac, hget .ig, hget .vsi, hget .vs,
    hget .nrsv, hget .func, hget .finst, hget .ecui, hget .mfg, hget .idn, hget .nameA,
    hget .nameB, hnbytes⟩

theorem InFile.set_comm (f : InFile) {p q : InReg} (v : BitVec p.width) (w : BitVec q.width)
    (h : p ≠ q) : (f.set p v).set q w = (f.set q w).set p v := by
  refine InFile.ext_get fun r => ?_
  by_cases hp : r = p
  · subst hp
    rw [get_set_other _ _ _ _ h, get_set_same, get_set_same]
  · by_cases hq : r = q
    · subst hq
      rw [get_set_same, get_set_other _ _ _ _ hp, get_set_same]
    · rw [get_set_other _ _ _ _ hq, get_set_other _ _ _ _ hp, get_set_other _ _ _ _ hp,
        get_set_other _ _ _ _ hq]

/-- Settles O39: both orders leave the same IN file, and nothing else changes. -/
theorem writesToDifferentRegistersCommute : Obligations.WritesToDifferentRegistersCommute := by
  unfold Obligations.WritesToDifferentRegistersCommute
  intro s p q v w h
  simp only [runActions_cons, act_wr_inp, andThen_next, InFile.set_comm s.inp v w h]

/-- Some operand that holds `⊥` is the first one. -/
theorem FaultsAtFirstUnwritten.exists_fault {ops : List InReg} {s : State} {res : Result}
    (h : FaultsAtFirstUnwritten ops s res) (hnone : ∃ q ∈ ops, s.inp.get q = none) :
    ∃ q ∈ ops, s.inp.get q = none ∧ res = .fault (.unwrittenOperand q) := by
  have hfound : (ops.find? fun q => (s.inp.get q).isNone).isSome :=
    List.find?_isSome.2 (hnone.imp fun q ⟨hq, hn⟩ => ⟨hq, by rw [hn]; rfl⟩)
  obtain ⟨q, hq⟩ := Option.isSome_iff_exists.1 hfound
  obtain ⟨hn, before, after, hsplit, hbefore⟩ := List.find?_eq_some_iff_append.1 hq
  have hn : s.inp.get q = none := Option.isNone_iff_eq_none.1 hn
  refine ⟨q, List.mem_of_find?_eq_some hq, hn, h before q after hsplit (fun r hr => ?_) hn⟩
  simpa using hbefore r hr

theorem OperandsWritten.isSome {i : Instr} {s : State} (h : OperandsWritten i s) {q : InReg}
    (hq : IsOperand i s q) : (s.inp.get q).isSome := by
  obtain ⟨hscalar, hlane⟩ := h
  obtain hq | ⟨l, n, hl, hn, j, hj, rfl⟩ := hq
  · exact hscalar q hq
  · exact hlane l n hl hn j hj

/-- A command with its operands written answers a next state. -/
theorem exec_next_of_operandsWritten {i : Instr} {s : State} (h : OperandsWritten i s) :
    ∃ t, exec i s = .next t := by
  obtain hnext | ⟨q, hq, hnone, -⟩ := exec_nextOrUnwritten i s
  · exact hnext
  · have hsome := h.isSome hq
    rw [hnone] at hsome
    cases hsome

theorem InFile.isSome_get_set (f : InFile) (p q : InReg) (v : BitVec p.width) :
    ((f.set p v).get q).isSome ↔ q = p ∨ (f.get q).isSome := by
  by_cases h : q = p
  · subst h
    simp
  · rw [get_set_other _ _ _ _ h]
    simp [h]

theorem exists_eq_wr_inp (p q : InReg) (v : BitVec p.width) :
    (∃ w, Action.wr (.inp q) w = .wr (.inp p) v) ↔ q = p := by
  constructor
  · rintro ⟨w, hw⟩
    cases hw
    rfl
  · rintro rfl
    exact ⟨v, rfl⟩

/-- Writes to IN are all performed, and add to the written registers exactly those they name. -/
theorem runActions_writes (ws : List Action) (s : State)
    (hws : ∀ a ∈ ws, ∃ q v, a = .wr (.inp q) v) :
    ∃ t, runActions ws s = .next t ∧ ∀ q : InReg,
      (t.inp.get q).isSome ↔ (∃ v, Action.wr (.inp q) v ∈ ws) ∨ (s.inp.get q).isSome := by
  induction ws generalizing s with
  | nil => exact ⟨_, runActions_nil s, fun q => by simp [State.withPending]⟩
  | cons a ws ih =>
    obtain ⟨⟨p, v, rfl⟩, hrest⟩ := List.forall_mem_cons.1 hws
    obtain ⟨t, ht, hget⟩ := ih { s with inp := s.inp.set p v } hrest
    refine ⟨t, by rw [runActions_cons, act_wr_inp, andThen_next, ht], fun q => ?_⟩
    rw [hget q, InFile.isSome_get_set, ← exists_eq_wr_inp p q v]
    simp only [List.mem_cons, exists_or]
    tauto

/-- Settles O49: the outcomes of a command, and from reset the writes and then the command. -/
theorem commandsRunOnceTheirOperandsAreWritten :
    Obligations.CommandsRunOnceTheirOperandsAreWritten := by
  unfold Obligations.CommandsRunOnceTheirOperandsAreWritten
  refine ⟨fun i s => exec_next_of_operandsWritten,
    fun i s => (exec_faultsAtFirstUnwritten i s).exists_fault, fun ws hws => ?_⟩
  obtain ⟨s, hs, hget⟩ := runActions_writes ws State.reset hws
  refine ⟨s, hs, fun q => ?_, fun i hi => ?_⟩
  · rw [hget q, State.reset_inp, InFile.get_empty]
    simp
  · obtain ⟨t, ht⟩ := exec_next_of_operandsWritten hi
    have hcommand : runActions [.wr .cmd (encode i)] s = .next (t.withPending []) := by
      rw [runActions_cons, act_wr_cmd_of_ok (decode_encode i), ht, andThen_next, runActions_nil]
    exact ⟨_, (actionsTakeEffectInOrder ws _ _ _).2 ⟨s, hs, hcommand⟩⟩

end Sys2Proof.Machine
end

section
/-! Several JCBs in one system (60_exceptions.md R100): a step of one replaces its own state in the
list. -/

namespace Sys2Proof.Machine

theorem stepInstance_of_none {k : Nat} {sys : List State} (h : sys[k]? = none) :
    stepInstance k sys = .next sys := by
  simp only [stepInstance, h]

/-- A system step of the `k`-th JCB is a step of its state. -/
theorem stepInstance_of_some {k : Nat} {sys sys' : List State} {s : State} (hs : sys[k]? = some s)
    (h : stepInstance k sys = .next sys') : ∃ t, step s = .next t ∧ sys' = sys.set k t := by
  simp only [stepInstance, hs] at h
  cases hstep : step s with
  | next t => rw [hstep] at h; cases h; exact ⟨t, rfl, rfl⟩
  | fault r => rw [hstep] at h; cases h
  | refused r => rw [hstep] at h; cases h

/-- Settles O47: beyond the list nothing changes, and within it one entry is replaced. -/
theorem instancesShareNothing : Obligations.InstancesShareNothing := by
  unfold Obligations.InstancesShareNothing
  intro k sys sys' h
  cases hs : sys[k]? with
  | none =>
    rw [stepInstance_of_none hs] at h
    cases h
    exact ⟨rfl, fun _ _ => rfl, fun _ hs' => absurd hs' (Option.some_ne_none _).symm⟩
  | some s =>
    obtain ⟨t, hstep, rfl⟩ := stepInstance_of_some hs h
    obtain ⟨hk, -⟩ := List.getElem?_eq_some_iff.1 hs
    refine ⟨List.length_set, fun j hj => List.getElem?_set_ne hj.symm, fun s' hs' => ?_⟩
    obtain rfl := Option.some.inj hs'
    exact ⟨t, hstep, List.getElem?_set_self hk⟩

end Sys2Proof.Machine
end

section
/-! What a step performs (20_memory.md R39), the PGN constants (30_encoding.md R64), and the reset
and read actions. -/

namespace Sys2Proof.Machine

/-- Settles O3: the two laws of `step`, by whether an action is pending. -/
theorem stepPerformsTheNextAction : Obligations.StepPerformsTheNextAction :=
  ⟨step_cons, step_nil⟩

/-- Settles O4: the pending write is performed, and its word runs the command. -/
theorem stepRunsTheDecodedCommand : Obligations.StepRunsTheDecodedCommand := by
  unfold Obligations.StepRunsTheDecodedCommand
  refine ⟨fun s w rest i hp hw => ?pending, fun s w i hw => ?fetched⟩
  case pending => rw [step_cons s _ rest hp, act_wr_cmd_of_ok hw]
  case fetched =>
    rw [step_cons _ _ s.pending (withFetchWord_pending s 8 w), commandAction,
      act_wr_cmd_of_ok (decode_of_decodeTableWord hw)]
    rfl

/-- Settles O29: the four constants one by one. -/
theorem pgnConstantsArePdu1 : Obligations.PgnConstantsArePdu1 := by
  unfold Obligations.PgnConstantsArePdu1
  intro g hg
  simp only [List.mem_cons, List.not_mem_nil, or_false] at hg
  obtain rfl | rfl | rfl | rfl := hg
  · decide
  · decide
  · decide
  · decide

/-- Settles O31: the reset event empties IN and OUT, and keeps the host's side. -/
theorem resetAction : Obligations.ResetAction := by
  unfold Obligations.ResetAction
  exact fun s => ⟨_, act_reset s, InFile.get_empty, OutFile.get_empty, rfl, rfl, rfl⟩

/-- Settles O33: CMD is refused, and any other register answers its content or the fault. (The name
`hostRead` is the model's function.) -/
theorem hostRead_holds : Obligations.HostRead := by
  unfold Obligations.HostRead
  exact fun s => ⟨act_rd_cmd s, act_rd_of_content (r := .status) rfl,
    fun q => ⟨act_rd_of_no_content (r := .inp q) nofun, fun _ => act_rd_of_content (r := .inp q)⟩,
    fun q => ⟨act_rd_of_no_content (r := .out q) nofun, fun _ => act_rd_of_content (r := .out q)⟩⟩

end Sys2Proof.Machine
end
